-- ==== Sys2Proof/Config.lean ====
section
/-! DEFINITION. What an implementation of the core fixes: the widths of spec/00_scope.md section 4 and the open
buffer capacity `NBUF`. -/

namespace Sys2Proof.Config

/-- `CHAR_W`, the width of a character and of a SRC or DST cell (00_scope.md R8: 8 for this hardware; log 2). -/
abbrev charW : Nat := 8

/-- `INT_W`, the width of INT_IN and INT_OUT (00_scope.md R9: 53 for this hardware; log 2). -/
abbrev intW : Nat := 53

/-- How far `NBUF` lies above its least value 64. It has no body: nothing can be proved of it but its range
(00_scope.md R10, left OPEN there; log 1). -/
opaque nbufAbove64 : Fin 16777152

/-- `NBUF`, the number of cells of SRC and of DST: some value in 64..2^24-1 (00_scope.md R10). -/
def nbuf : Nat := nbufAbove64.val + 64

end Sys2Proof.Config
end

