-- ==== Sys2Proof/Word.lean ====
section
/-! DEFINITION. The bit-vector types of the core, each width from spec/00_scope.md R8, R9, R11. -/

namespace Sys2Proof

/-- A 32-bit command word, and the width of STATUS and ERR_INFO. -/
abbrev Word := BitVec 32

/-- A byte of a buffer. -/
abbrev Byte := BitVec 8

/-- One cell of SRC or DST: a character code or a zero-extended byte (00_scope.md R8, 20_memory.md R54). -/
abbrev Cell := BitVec Config.charW

/-- A base-64 digit, the index of a character in the alphabet (00_scope.md R17). -/
abbrev Digit := BitVec 6

/-- A length field: LEN, SRC_LEN, OUT_LEN and ERR_INFO.POS; `LEN_W` = 24 is no parameter (00_scope.md R11). -/
abbrev Len := BitVec 24

/-- The contents of INT_IN and INT_OUT (00_scope.md R9). -/
abbrev IntWord := BitVec Config.intW

end Sys2Proof
end

