-- ==== Sys2Proof/Syntax.lean ====
section
/-! DEFINITION. The six commands of spec/opcode_table.json (30_encoding.md R71). -/

namespace Sys2Proof

/-- One command. The optional length argument is `none` where the word's LEN field is 0 and `some n` where the
field holds `n >= 1` (30_encoding.md R74); all other operands are implicit (30_encoding.md R72). -/
inductive Instr where
  /-- LDALPHA, `createCodec(alphabet)` (40_construction.md R104). -/
  | ldalpha
  /-- LDDEF, `createCodec()` (40_construction.md R108). -/
  | lddef
  /-- ENCBUF, the length in characters (41_encoder.md R122). -/
  | encbuf (len : Option Nat)
  /-- ENCINT, the length in characters (41_encoder.md R134). -/
  | encint (len : Option Nat)
  /-- DECBUF, the length in bytes (42_decoder.md R153). -/
  | decbuf (bytes : Option Nat)
  /-- DECINT (42_decoder.md R162). -/
  | decint
deriving DecidableEq, Repr

end Sys2Proof
end

