-- ==== Sys2Proof/WellFormed.lean ====
section
/-! DEFINITION. Which terms of `Instr` are commands: a given length is at least 1 and fits the 24-bit LEN field. -/

namespace Sys2Proof

/-- A given length argument is in `1..2^24-1` (30_encoding.md R73, R74, R80). -/
def lenArgOk : Option Nat → Bool
  | none => true
  | some n => decide (1 ≤ n) && decide (n < 2 ^ 24)

/-- The commands that have a word. -/
def Instr.wf : Instr → Bool
  | .ldalpha => true
  | .lddef => true
  | .encbuf len => lenArgOk len
  | .encint len => lenArgOk len
  | .decbuf bytes => lenArgOk bytes
  | .decint => true

end Sys2Proof
end

