-- ==== Sys2Proof/Decode.lean ====
section
/-! DEFINITION. The command word: its fields, the total decoder and the encoder (spec/30_encoding.md). -/

namespace Sys2Proof

/-- `OP = w[3:0]` (30_encoding.md R70). -/
def opField (w : Word) : BitVec 4 := w.extractLsb' 0 4

/-- `RSV = w[7:4]` (30_encoding.md R70). -/
def rsvField (w : Word) : BitVec 4 := w.extractLsb' 4 4

/-- `LEN = w[31:8]` (30_encoding.md R70, R73). -/
def lenField (w : Word) : Len := w.extractLsb' 8 24

/-- Why a word is no command (30_encoding.md R77). Each of the three completes with E_ILLEGAL. -/
inductive IllegalWord where
  /-- OP is 0x0 or in 0x7..0xF. -/
  | opcode
  /-- RSV is not 0. -/
  | reserved
  /-- LEN is not 0 on LDALPHA, LDDEF or DECINT. -/
  | length
deriving DecidableEq, Repr

/-- LEN = 0 means the argument is omitted (30_encoding.md R74). -/
def lenArg (n : Nat) : Option Nat := if n = 0 then none else some n

/-- A command without a length argument: its LEN must be 0 (30_encoding.md R75). -/
def bareCommand (i : Instr) (len : Nat) : Except IllegalWord Instr :=
  if len = 0 then .ok i else .error .length

/-- Decoding, total on every 32-bit word, in the order of 30_encoding.md R76. -/
def decode (w : Word) : Except IllegalWord Instr :=
  let op := (opField w).toNat
  let len := (lenField w).toNat
  if op = 0 ∨ 6 < op then .error .opcode
  else if rsvField w ≠ 0 then .error .reserved
  else match op with
    | 1 => bareCommand .ldalpha len
    | 2 => bareCommand .lddef len
    | 3 => .ok (.encbuf (lenArg len))
    | 4 => .ok (.encint (lenArg len))
    | 5 => .ok (.decbuf (lenArg len))
    | 6 => bareCommand .decint len
    | _ => .error .opcode

/-- The command numbers of 30_encoding.md R71. -/
def opNumber : Instr → BitVec 4
  | .ldalpha => 1
  | .lddef => 2
  | .encbuf _ => 3
  | .encint _ => 4
  | .decbuf _ => 5
  | .decint => 6

/-- The LEN field of a command's word (30_encoding.md R74, R75). -/
def lenOperand : Instr → Len
  | .ldalpha => 0
  | .lddef => 0
  | .encbuf len => BitVec.ofNat 24 (len.getD 0)
  | .encint len => BitVec.ofNat 24 (len.getD 0)
  | .decbuf bytes => BitVec.ofNat 24 (bytes.getD 0)
  | .decint => 0

/-- The word of a command: LEN, then RSV = 0, then OP (30_encoding.md R70). -/
def encode (i : Instr) : Word := lenOperand i ++ (0#4 ++ opNumber i)

/-- The command word that a table row's `nbits` bits `w` stand for: there is one word of 32 bits and no second one
(30_encoding.md R78), so the bits above `nbits` are 0. -/
def tableWord (nbits w : Nat) : Word := BitVec.ofNat 32 (w % 2 ^ nbits)

/-- The command the decoder reads from the bits of an opcode-table row. -/
def decodeTableWord (nbits w : Nat) : Option Instr :=
  match decode (tableWord nbits w) with
  | .ok i => some i
  | .error _ => none

end Sys2Proof
end

