-- ==== Sys2Proof/Machine/Codec.lean ====
section
/-! DEFINITION. The codec: the alphabet store LUT, the reverse table RLUT and its derivation, and the default
alphabet (spec/10_state.md section 2, spec/40_construction.md section 1). -/

namespace Sys2Proof.Machine

/-- The alphabet store: `LUT[i]` is the character of digit `i` (10_state.md R20). -/
abbrev Alphabet := Vector Cell 64

/-- One entry of the reverse table (10_state.md R21). -/
structure RlutEntry where
  valid : Bool
  idx : Digit
deriving DecidableEq, Repr

/-- The reverse table, one entry for every character code (10_state.md R21). -/
abbrev ReverseMap := Vector RlutEntry (2 ^ Config.charW)

/-- `LUT[d]` (41_encoder.md R120). -/
def Alphabet.char (lut : Alphabet) (d : Digit) : Cell := lut[d.toNat]'d.isLt

/-- `RLUT[c]` (42_decoder.md R150). -/
def ReverseMap.entry (rlut : ReverseMap) (c : Cell) : RlutEntry := rlut[c.toNat]'c.isLt

/-- `RLUT[c] <- e`. -/
def ReverseMap.put (rlut : ReverseMap) (c : Cell) (e : RlutEntry) : ReverseMap := rlut.set c.toNat e c.isLt

/-- The first loop of DeriveRLUT: every entry (VALID = 0, IDX = 0) (10_state.md R23). -/
def ReverseMap.cleared : ReverseMap := Vector.replicate _ ⟨false, 0⟩

/-- The second loop of DeriveRLUT, from index `i` on: `RLUT[LUT[i]] <- (1, i)` (10_state.md R23). -/
def deriveFrom : Nat → List Cell → ReverseMap → ReverseMap
  | _, [], rlut => rlut
  | i, c :: cs, rlut => deriveFrom (i + 1) cs (rlut.put c ⟨true, BitVec.ofNat 6 i⟩)

/-- `DeriveRLUT()` (10_state.md R23). -/
def deriveRlut (lut : Alphabet) : ReverseMap := deriveFrom 0 lut.toList ReverseMap.cleared

/-- The default alphabet, in index order: the table of codes of 40_construction.md R101 (its codes are ASCII by the
spec's own decision D17; log 16). -/
def defaultAlphabet : Alphabet :=
  #v[0x2D, 0x30, 0x31, 0x32, 0x33, 0x34, 0x35, 0x36, 0x37, 0x38, 0x39, 0x41, 0x42, 0x43, 0x44, 0x45,
     0x46, 0x47, 0x48, 0x49, 0x4A, 0x4B, 0x4C, 0x4D, 0x4E, 0x4F, 0x50, 0x51, 0x52, 0x53, 0x54, 0x55,
     0x56, 0x57, 0x58, 0x59, 0x5A, 0x5F, 0x61, 0x62, 0x63, 0x64, 0x65, 0x66, 0x67, 0x68, 0x69, 0x6A,
     0x6B, 0x6C, 0x6D, 0x6E, 0x6F, 0x70, 0x71, 0x72, 0x73, 0x74, 0x75, 0x76, 0x77, 0x78, 0x79, 0x7A]

/-- The alphabet whose characters are the cells of a list of 64, in the order supplied (40_construction.md R105). -/
def Alphabet.ofCells (cs : List Cell) : Alphabet := Vector.ofFn fun i => cs.getD i.val 0

end Sys2Proof.Machine
end

