-- ==== Sys2Proof/Machine/Memory.lean ====
section
/-! DEFINITION. The cell memories SRC and DST: written cells only, in one canonical form (spec/10_state.md R30,
spec/20_memory.md R50). -/

namespace Sys2Proof.Machine

/-- A cell memory: the written cells with their indexes, indexes strictly rising. An index that is not listed has not
been written since reset and reads as no value (10_state.md R30, 92_eei_decisions.md D28; log 5). -/
abbrev Memory := List Host.Cell

/-- The canonical form: indexes strictly rising. An unlisted cell reads as no value, which no entry can equal. -/
abbrev Memory.wf (m : Memory) : Prop := List.Pairwise (fun a b => a.1 < b.1) m

/-- Read one cell; `none` where nothing has written it. -/
def Memory.read : Memory → Nat → Option Cell
  | [], _ => none
  | (a, v) :: m, k => if a = k then some v else Memory.read m k

/-- Write one whole cell. -/
def Memory.write : Memory → Nat → Cell → Memory
  | [], k, v => [(k, v)]
  | (a, w) :: m, k, v =>
    if k < a then (k, v) :: (a, w) :: m
    else if k = a then (k, v) :: m
    else (a, w) :: Memory.write m k v

/-- Write the cells of a list at indexes `k`, `k + 1`, ... -/
def Memory.writeList : Memory → Nat → List Cell → Memory
  | m, _, [] => m
  | m, k, v :: vs => Memory.writeList (m.write k v) (k + 1) vs

end Sys2Proof.Machine
end

