-- ==== Sys2Proof/Machine/State.lean ====
section
/-! DEFINITION. The state of the core (spec/10_state.md), the host's actions, the reasons a step can stop, and the
state after reset (spec/70_reset_and_hazards.md R200). -/

namespace Sys2Proof.Machine

/-- The registers the host can name (20_memory.md R56). -/
inductive Reg where
  | srcLen
  | intIn
  | outLen
  | intOut
  | status
  | errInfo
deriving DecidableEq, Repr

/-- The host's actions, each indivisible (20_memory.md R56). Indexes and values are naturals, so that an action whose
precondition fails can be written down and is refused. -/
inductive HostAction where
  | writeSrc (k v : Nat)
  | readSrc (k : Nat)
  | readDst (k : Nat)
  | writeReg (r : Reg) (v : Nat)
  | readReg (r : Reg)
  | issue (w : Word)
  | reset
deriving DecidableEq, Repr

/-- The state: everything 10_state.md section 1 lists, and the model's two fields for the host's side. -/
structure State where
  /-- The alphabet store (10_state.md R20). -/
  lut : Alphabet
  /-- The reverse table (10_state.md R21). -/
  rlut : ReverseMap
  /-- The source cell memory (10_state.md R30). -/
  src : Memory
  /-- The destination cell memory (10_state.md R30). -/
  dst : Memory
  /-- SRC_LEN (10_state.md R26). -/
  srcLen : Len
  /-- INT_IN (10_state.md R26). -/
  intIn : IntWord
  /-- OUT_LEN (10_state.md R27). -/
  outLen : Len
  /-- INT_OUT (10_state.md R27). -/
  intOut : IntWord
  /-- STATUS (10_state.md R28). -/
  status : Word
  /-- ERR_INFO (10_state.md R29). -/
  errInfo : Word
  /-- The host's actions still to come, first one first (DESIGN CHOICE, log 3). -/
  host : List HostAction
  /-- The values host reads have returned, newest first (DESIGN CHOICE, log 4). -/
  replies : List Nat
deriving DecidableEq, Repr

/-- Why a step stops with a fault. -/
inductive Fault where
  /-- A command, or the host's ReadSRC, reads a SRC cell that nothing has written since reset
  (93_implementation_defined.md S2, S3). Safe: hardware goes on with an arbitrary value. -/
  | unwrittenSrc (k : Nat)
  /-- The host's ReadDST reads a DST cell that no command has written since reset (93_implementation_defined.md S3).
  Safe: hardware returns an arbitrary value. -/
  | unwrittenDst (k : Nat)
deriving DecidableEq, Repr

/-- Why a step is refused. All but the first are host actions whose precondition fails, for which the spec has no
step (20_memory.md R56, 93_implementation_defined.md S8). Safe: they are no actions of the hardware. -/
inductive Refusal where
  /-- Raised by an arm of `exec` whose instruction has no meaning yet; no arm is so now. Safe. -/
  | notModelled (mnemonic : String)
  /-- Raised by WriteSRC, ReadSRC and ReadDST on a cell index at or above NBUF. Safe. -/
  | noSuchCell (k : Nat)
  /-- Raised by WriteSRC and WriteReg on a value wider than the cell or register. Safe. -/
  | valueTooWide (v : Nat)
  /-- Raised by WriteReg on OUT_LEN, INT_OUT, STATUS or ERR_INFO. Safe. -/
  | readOnlyRegister (r : Reg)
deriving DecidableEq, Repr

/-- The machine right after reset (70_reset_and_hazards.md R200). -/
def State.reset : State where
  lut := defaultAlphabet
  rlut := deriveRlut defaultAlphabet
  src := []
  dst := []
  srcLen := 0
  intIn := 0
  outLen := 0
  intOut := 0
  status := 0
  errInfo := 0
  host := []
  replies := []

end Sys2Proof.Machine
end

