-- ==== Sys2Proof/Machine/Flags.lean ====
section
/-! DEFINITION. The fields of STATUS and ERR_INFO and what a completion writes into them (spec/10_state.md R28, R29,
spec/60_exceptions.md R180, R185). -/

namespace Sys2Proof.Machine

/-- The error codes (60_exceptions.md R180); code 0 is OK. -/
inductive ErrCode where
  | alphabet
  | bounds
  | decode
  | overflow
  | capacity
  | illegal
  | byte
deriving DecidableEq, Repr

/-- The number of an error code in STATUS.CODE (60_exceptions.md R180). -/
def ErrCode.number : ErrCode → BitVec 4
  | .alphabet => 1
  | .bounds => 2
  | .decode => 3
  | .overflow => 4
  | .capacity => 5
  | .illegal => 6
  | .byte => 7

/-- `STATUS.CODE`, bits 3:0 (10_state.md R28). -/
def statusCode (st : Word) : BitVec 4 := st.extractLsb' 0 4

/-- `STATUS.STICKY`, bit 4 (10_state.md R28). -/
def statusSticky (st : Word) : BitVec 1 := st.extractLsb' 4 1

/-- The reserved bits 31:5 of STATUS (10_state.md R28). -/
def statusReserved (st : Word) : BitVec 27 := st.extractLsb' 5 27

/-- `ERR_INFO.POS`, bits 23:0 (10_state.md R29). -/
def errPos (e : Word) : Len := e.extractLsb' 0 24

/-- `ERR_INFO.SUB`, bits 27:24 (10_state.md R29). -/
def errSub (e : Word) : BitVec 4 := e.extractLsb' 24 4

/-- The reserved bits 31:28 of ERR_INFO (10_state.md R29). -/
def errReserved (e : Word) : BitVec 4 := e.extractLsb' 28 4

/-- STATUS after a success: CODE <- 0, every other bit unchanged (60_exceptions.md R187). -/
def statusOnSuccess (st : Word) : Word := statusReserved st ++ (statusSticky st ++ 0#4)

/-- STATUS after a failure: CODE <- E, STICKY <- 1, reserved bits unchanged (60_exceptions.md R186). -/
def statusOnFailure (e : ErrCode) (st : Word) : Word := statusReserved st ++ (1#1 ++ e.number)

/-- `(SUB << 24) | POS`, reserved bits 0 (60_exceptions.md R185). -/
def errWord (sub : BitVec 4) (pos : Nat) : Word := 0#4 ++ (sub ++ BitVec.ofNat 24 pos)

end Sys2Proof.Machine
end

