-- ==== Sys2Proof/Machine/Ops.lean ====
section
/-! DEFINITION. The operations the commands share: how a command ends (spec/60_exceptions.md section 3), reading the
source cells in order, the capacity checks and writing an output to DST. -/

namespace Sys2Proof.Machine

/-- How a command ends without success. -/
inductive Stop where
  /-- `raise E(sub, pos)` (60_exceptions.md R186). -/
  | raise (e : ErrCode) (sub : BitVec 4) (pos : Nat)
  /-- The command reads SRC[k], which nothing has written (93_implementation_defined.md S2). -/
  | unwritten (k : Nat)
deriving DecidableEq, Repr

/-- Failure completion: only STATUS and ERR_INFO change; nothing is saved and control goes nowhere
(60_exceptions.md R186, R188). This is the core's whole exception entry; there is no return from it (R189). -/
def raiseError (e : ErrCode) (sub : BitVec 4) (pos : Nat) (s : State) : State :=
  { s with status := statusOnFailure e s.status, errInfo := errWord sub pos }

/-- Success completion (60_exceptions.md R187). -/
def complete (s : State) : State :=
  { s with status := statusOnSuccess s.status, errInfo := 0 }

/-- End a command that started in `s`: `r` holds the state with the command's staged writes, or why it stops. The
staged writes of a failing command are discarded (60_exceptions.md R186). -/
def endCommand (s : State) (r : Except Stop State) : Host.Outcome State Fault Refusal :=
  match r with
  | .ok t => .next (complete t)
  | .error (.raise e sub pos) => .next (raiseError e sub pos s)
  | .error (.unwritten k) => .fault (.unwrittenSrc k)

/-- `if not c: raise ...` -/
def require (c : Prop) [Decidable c] (e : ErrCode) (sub : BitVec 4) (pos : Nat) : Except Stop Unit :=
  if c then .ok () else .error (.raise e sub pos)

/-- E_CAPACITY, SUB 1: the input length SRC_LEN exceeds NBUF (60_exceptions.md R182). -/
def requireInput (nbuf : Nat) (s : State) : Except Stop Unit :=
  require (s.srcLen.toNat ≤ nbuf) .capacity 1 0

/-- E_CAPACITY, SUB 2: the output length exceeds NBUF (60_exceptions.md R182). -/
def requireOutput (nbuf len : Nat) : Except Stop Unit := require (len ≤ nbuf) .capacity 2 0

/-- Read `n` cells from index `k` on, in order, and check each as it is read: `check seen k c` is the error that cell
`c` at index `k` raises, if any, where `seen` holds the cells before it, newest first. The loops over SRC of
40_construction.md R104, 41_encoder.md R122 and 42_decoder.md R153, R162 run in this order (00_scope.md R16). -/
def scanCells (check : List Cell → Nat → Cell → Option Stop) (m : Memory) :
    Nat → Nat → List Cell → Except Stop (List Cell)
  | 0, _, _ => .ok []
  | n + 1, k, seen =>
    match m.read k with
    | none => .error (.unwritten k)
    | some c =>
      match check seen k c with
      | some stop => .error stop
      | none =>
        match scanCells check m n (k + 1) (c :: seen) with
        | .error stop => .error stop
        | .ok cs => .ok (c :: cs)

/-- Read and check `SRC[0..SRC_LEN-1]`. -/
def scanSrc (check : List Cell → Nat → Cell → Option Stop) (s : State) : Except Stop (List Cell) :=
  scanCells check s.src s.srcLen.toNat 0 []

/-- Write `DST[0..L-1]` and `OUT_LEN <- L` (20_memory.md R51). -/
def writeOutput (out : List Cell) (s : State) : State :=
  { s with dst := s.dst.writeList 0 out, outLen := BitVec.ofNat 24 out.length }

/-- Load a codec: LUT, and RLUT derived from it in the same step (10_state.md R21, R23). -/
def loadCodec (lut : Alphabet) (s : State) : State :=
  { s with lut := lut, rlut := deriveRlut lut }

end Sys2Proof.Machine
end

