-- ==== Sys2Proof/Machine/Operands.lean ====
section
/-! DEFINITION. Operand forms and the number functions of the commands: positional values, digits and bytes of a
value, the default lengths, and the checks on source cells (spec/00_scope.md R14, R16, spec/41_encoder.md R121, R130,
spec/42_decoder.md R152). -/

namespace Sys2Proof.Machine

/-- The positional value of a list of places, first place most significant: `sum of d[k] * base**(L-1-k)`, and 0 for no
places (00_scope.md R14: `BEval256` with base 256, `BEval64` with base 64). -/
def beval (base : Nat) : List Nat → Nat
  | [] => 0
  | d :: ds => d * base ^ ds.length + beval base ds

/-- `BEval256` of source cells (20_memory.md R52). -/
def bufferValue (cs : List Cell) : Nat := beval 256 (cs.map BitVec.toNat)

/-- `BEval64` of a string's digits (20_memory.md R53). -/
def stringValue (ds : List Digit) : Nat := beval 64 (ds.map BitVec.toNat)

/-- Digit `k` of the `len`-digit form of `v`: `(v >> (6 * (len-1-k))) mod 64` (41_encoder.md R122, R134). -/
def digitAt (v len k : Nat) : Digit := BitVec.ofNat 6 (v >>> (6 * (len - 1 - k)))

/-- The `len` least significant base-64 digits of `v`, most significant first. -/
def digitsOf (v len : Nat) : List Digit := (List.range len).map (digitAt v len)

/-- Byte `j` of the `len`-byte form of `v`: `(v >> (8 * (len-1-j))) mod 256` (42_decoder.md R153). -/
def byteAt (v len j : Nat) : Byte := BitVec.ofNat 8 (v >>> (8 * (len - 1 - j)))

/-- The `len` least significant bytes of `v`, most significant first. -/
def bytesOf (v len : Nat) : List Byte := (List.range len).map (byteAt v len)

/-- `Ldef_buf(n)`, the default output length of ENCBUF (41_encoder.md R121). -/
def ldefBuf (n : Nat) : Nat := (8 * n + 5) / 6

/-- `Ldef_dec(L)`, the default output length of DECBUF (42_decoder.md R152). -/
def ldefDec (len : Nat) : Nat := (6 * len + 7) / 8

/-- The least `j >= k` with `64**j >= x`, looking at `fuel` candidates. -/
def clog64From (x : Nat) : Nat → Nat → Nat
  | 0, k => k
  | fuel + 1, k => if x ≤ 64 ^ k then k else clog64From x fuel (k + 1)

/-- `clog64(x)`: the least `k` with `64**k >= x` (00_scope.md R16); `x` candidates suffice, since `64**x >= x`. -/
def clog64 (x : Nat) : Nat := clog64From x x 0

/-- `isPow2(x)`: `x = 2**e` for some `e` (00_scope.md R16). -/
def isPow2 (x : Nat) : Bool := x == 2 ^ Nat.log2 x

/-- `Ldef_int(num)`, the default output length of ENCINT, in exact arithmetic (41_encoder.md R130). -/
def ldefInt (num : Nat) : Nat :=
  if num = 0 then 1 else max 1 (clog64 num + (if isPow2 num then 1 else 0))

/-- E_BYTE: an ENCBUF cell above 255; no cell of 8 bits is (20_memory.md R54). -/
def byteCheck (_seen : List Cell) (k : Nat) (c : Cell) : Option Stop :=
  if 255 < c.toNat then some (.raise .byte 0 k) else none

/-- E_ALPHABET, SUB 2: a character that repeats an earlier one (40_construction.md R104). -/
def repeatCheck (seen : List Cell) (k : Nat) (c : Cell) : Option Stop :=
  if c ∈ seen then some (.raise .alphabet 2 k) else none

/-- E_DECODE: a character that is not in the current alphabet (42_decoder.md R151). -/
def decodeCheck (rlut : ReverseMap) (_seen : List Cell) (k : Nat) (c : Cell) : Option Stop :=
  if (rlut.entry c).valid then none else some (.raise .decode 0 k)

/-- The digits of a string's characters, by the reverse table (42_decoder.md R150). -/
def ReverseMap.digits (rlut : ReverseMap) (cs : List Cell) : List Digit := cs.map fun c => (rlut.entry c).idx

end Sys2Proof.Machine
end

