-- ==== Sys2Proof/Machine/Construction.lean ====
section
/-! DEFINITION. Codec construction: LDALPHA and LDDEF (spec/40_construction.md). -/

namespace Sys2Proof.Machine

/-- LDALPHA up to its completion, for a capacity `nbuf` (40_construction.md R104). The characters are used in the order
supplied (R105). -/
def ldalphaCommand (nbuf : Nat) (s : State) : Except Stop State := do
  requireInput nbuf s
  require (s.srcLen.toNat = 64) .alphabet 1 s.srcLen.toNat
  let cs ← scanSrc repeatCheck s
  return loadCodec (Alphabet.ofCells cs) s

/-- LDALPHA (40_construction.md R104). -/
def execLdalpha (s : State) : Host.Outcome State Fault Refusal := endCommand s (ldalphaCommand Config.nbuf s)

/-- LDDEF (40_construction.md R108). -/
def execLddef (s : State) : Host.Outcome State Fault Refusal := endCommand s (.ok (loadCodec defaultAlphabet s))

end Sys2Proof.Machine
end

