-- ==== Sys2Proof/Machine/Encoder.lean ====
section
/-! DEFINITION. The encoder unit: ENCBUF and ENCINT, and their digit datapaths (spec/41_encoder.md). -/

namespace Sys2Proof.Machine

/-- The character-LUT stage: `char <- LUT[d]` for every digit (41_encoder.md R120). -/
def Alphabet.chars (lut : Alphabet) (ds : List Digit) : List Cell := ds.map lut.char

/-- ENCBUF up to its completion, for a capacity `nbuf` (41_encoder.md R122). -/
def encbufCommand (nbuf : Nat) (len : Option Nat) (s : State) : Except Stop State := do
  requireInput nbuf s
  let cs ← scanSrc byteCheck s
  let outLen := len.getD (ldefBuf s.srcLen.toNat)
  requireOutput nbuf outLen
  return writeOutput (s.lut.chars (digitsOf (bufferValue cs) outLen)) s

/-- ENCBUF (41_encoder.md R122). -/
def execEncbuf (len : Option Nat) (s : State) : Host.Outcome State Fault Refusal :=
  endCommand s (encbufCommand Config.nbuf len s)

/-- E_BOUNDS: a given length too small for the integer; never with the length omitted (41_encoder.md R132). -/
def requireFits (len : Option Nat) (num : Nat) : Except Stop Unit :=
  match len with
  | none => .ok ()
  | some n => require (num < 64 ^ n) .bounds 0 0

/-- ENCINT up to its completion, for a capacity `nbuf` (41_encoder.md R134). -/
def encintCommand (nbuf : Nat) (len : Option Nat) (s : State) : Except Stop State := do
  let num := s.intIn.toNat
  let outLen := len.getD (ldefInt num)
  requireOutput nbuf outLen
  requireFits len num
  return writeOutput (s.lut.chars (digitsOf num outLen)) s

/-- ENCINT (41_encoder.md R134). -/
def execEncint (len : Option Nat) (s : State) : Host.Outcome State Fault Refusal :=
  endCommand s (encintCommand Config.nbuf len s)

/-! The digit datapaths. The two commands above write what the closed forms of R122 and R134 say; the machines below are
the datapaths of R125 and R133, which the spec says compute the same digits (R127, R133; log 13). -/

/-- The sub-case of a position counted from 1 at the output's end, `i mod 4` (41_encoder.md R126). -/
inductive Phase where
  | a
  | b
  | c
  | d
deriving DecidableEq, Repr

/-- The phase of position `i`. -/
def Phase.at (i : Nat) : Phase :=
  match i % 4 with
  | 1 => .a
  | 2 => .b
  | 3 => .c
  | _ => .d

/-- `NextByte()`: the last of the `p` bytes not yet consumed, or 0 when there is none, and the new `p`
(41_encoder.md R125). -/
def nextByte (buf : List Byte) (p : Nat) : Byte × Nat := (if p = 0 then 0 else buf.getD (p - 1) 0, p - 1)

/-- One phase of the 6-bit grouper: the digit emitted, the new `p` and the new hang (41_encoder.md R125). -/
def grouperStep (buf : List Byte) (ph : Phase) (p : Nat) (hang : BitVec 6) : Digit × Nat × BitVec 6 :=
  let x := (nextByte buf p).1
  let p' := (nextByte buf p).2
  match ph with
  | .a => (x.extractLsb' 0 6, p', (x.extractLsb' 6 2).setWidth 6)
  | .b => (x.extractLsb' 0 4 ++ hang.extractLsb' 0 2, p', (x.extractLsb' 4 4).setWidth 6)
  | .c => (x.extractLsb' 0 2 ++ hang.extractLsb' 0 4, p', x.extractLsb' 2 6)
  | .d => (hang, p, 0)

/-- The digits the grouper emits in `n` positions from position `i` on, the last output position first. -/
def grouperRun (buf : List Byte) : Nat → Nat → Nat → BitVec 6 → List Digit
  | 0, _, _, _ => []
  | n + 1, i, p, hang =>
    let r := grouperStep buf (Phase.at i) p hang
    r.1 :: grouperRun buf n (i + 1) r.2.1 r.2.2

/-- The ENCBUF digit datapath: position `i` from the end takes the `i`-th digit emitted, `DST[L-i]`
(41_encoder.md R125). -/
def grouperDigits (buf : List Byte) (len : Nat) : List Digit := (grouperRun buf len 1 buf.length 0).reverse

/-- The ENCINT digit extractor over `n` positions, the last output position first: `t[5:0]` while `t` is not 0, then
zeros (41_encoder.md R133). -/
def extractorRun : Nat → IntWord → List Digit
  | 0, _ => []
  | n + 1, t => if t ≠ 0 then t.extractLsb' 0 6 :: extractorRun n (t >>> 6) else 0 :: extractorRun n t

/-- The ENCINT digit datapath (41_encoder.md R133). -/
def extractorDigits (num : IntWord) (len : Nat) : List Digit := (extractorRun len num).reverse

end Sys2Proof.Machine
end

