-- ==== Sys2Proof/Machine/Decoder.lean ====
section
/-! DEFINITION. The decoder unit: DECBUF and DECINT, and the byte datapath of DECBUF (spec/42_decoder.md). -/

namespace Sys2Proof.Machine

/-- DECBUF up to its completion, for a capacity `nbuf` (42_decoder.md R153). A byte is stored zero-extended
(20_memory.md R54). -/
def decbufCommand (nbuf : Nat) (bytes : Option Nat) (s : State) : Except Stop State := do
  requireInput nbuf s
  let cs ← scanSrc (decodeCheck s.rlut) s
  let outLen := bytes.getD (ldefDec s.srcLen.toNat)
  requireOutput nbuf outLen
  let v := stringValue (s.rlut.digits cs)
  return writeOutput ((bytesOf v outLen).map (BitVec.setWidth Config.charW)) s

/-- DECBUF (42_decoder.md R153). -/
def execDecbuf (bytes : Option Nat) (s : State) : Host.Outcome State Fault Refusal :=
  endCommand s (decbufCommand Config.nbuf bytes s)

/-- The accumulation of DECINT over the digits from index `k` on, most significant first; it stops at the first index
where the value reaches `2**INT_W` (42_decoder.md R160, R161). -/
def accumulate : List Digit → Nat → Nat → Except Stop Nat
  | [], _, acc => .ok acc
  | d :: ds, k, acc =>
    let acc' := acc * 64 + d.toNat
    if 2 ^ Config.intW ≤ acc' then .error (.raise .overflow 0 k) else accumulate ds (k + 1) acc'

/-- DECINT up to its completion, for a capacity `nbuf` (42_decoder.md R162). -/
def decintCommand (nbuf : Nat) (s : State) : Except Stop State := do
  requireInput nbuf s
  let cs ← scanSrc (decodeCheck s.rlut) s
  let acc ← accumulate (s.rlut.digits cs) 0 0
  return { s with intOut := BitVec.ofNat Config.intW acc }

/-- DECINT (42_decoder.md R162). -/
def execDecint (s : State) : Host.Outcome State Fault Refusal := endCommand s (decintCommand Config.nbuf s)

/-! The byte datapath of DECBUF, which the spec says computes the bytes of R153 (R157; log 13). -/

/-- `NextDigit()`: the digit of the last of the `q` characters not yet consumed, or 0 when there is none, and the new
`q` (42_decoder.md R156). -/
def nextDigit (ds : List Digit) (q : Nat) : Digit × Nat := (if q = 0 then 0 else ds.getD (q - 1) 0, q - 1)

/-- One phase of the 6-to-8-bit unpacker: the byte emitted, if any, the new `q` and the new carry
(42_decoder.md R156). -/
def unpackerStep (ds : List Digit) (ph : Phase) (q : Nat) (acc : BitVec 6) : Option Byte × Nat × BitVec 6 :=
  let x := (nextDigit ds q).1
  let q' := (nextDigit ds q).2
  match ph with
  | .a => (none, q', x)
  | .b => (some (x.extractLsb' 0 2 ++ acc), q', (x.extractLsb' 2 4).setWidth 6)
  | .c => (some (x.extractLsb' 0 4 ++ acc.extractLsb' 0 4), q', (x.extractLsb' 4 2).setWidth 6)
  | .d => (some (x ++ acc.extractLsb' 0 2), q', 0)

/-- The bytes the unpacker emits until `left` of them are written, from character position `i` on, the last output
byte first. -/
def unpackerRun (ds : List Digit) : Nat → Nat → Nat → Nat → BitVec 6 → List Byte
  | 0, _, _, _, _ => []
  | fuel + 1, left, i, q, acc =>
    if left = 0 then []
    else
      match unpackerStep ds (Phase.at i) q acc with
      | (none, q', acc') => unpackerRun ds fuel left (i + 1) q' acc'
      | (some x, q', acc') => x :: unpackerRun ds fuel (left - 1) (i + 1) q' acc'

/-- The DECBUF byte datapath: the `j`-th byte emitted goes to `DST[m-j]` (42_decoder.md R156). Of any four positions
three emit a byte, so `2 * m` positions suffice for `m` bytes. -/
def unpackerBytes (ds : List Digit) (m : Nat) : List Byte := (unpackerRun ds (2 * m) m 1 ds.length 0).reverse

end Sys2Proof.Machine
end

