-- ==== Sys2Proof/Machine/Dispatch.lean ====
section
/-! DEFINITION. One arm per command (spec/opcode_table.json). -/

namespace Sys2Proof.Machine

def exec (i : Instr) (s : State) : Host.Outcome State Fault Refusal :=
  match i with
  | .ldalpha => Sys2Proof.Machine.execLdalpha s
  | .lddef => Sys2Proof.Machine.execLddef s
  | .encbuf len => Sys2Proof.Machine.execEncbuf len s
  | .encint len => Sys2Proof.Machine.execEncint len s
  | .decbuf bytes => Sys2Proof.Machine.execDecbuf bytes s
  | .decint => Sys2Proof.Machine.execDecint s

end Sys2Proof.Machine
end

