-- ==== Sys2Proof/Machine/HostPort.lean ====
section
/-! DEFINITION. What each host action does (spec/20_memory.md R56) and how the host's pseudo-instructions expand into
actions (spec/30_encoding.md R81). -/

namespace Sys2Proof.Machine

/-- The value of a register, as the host reads it. -/
def State.readReg (s : State) : Reg → Nat
  | .srcLen => s.srcLen.toNat
  | .intIn => s.intIn.toNat
  | .outLen => s.outLen.toNat
  | .intOut => s.intOut.toNat
  | .status => s.status.toNat
  | .errInfo => s.errInfo.toNat

/-- Return a value to the host; no state of the core changes (20_memory.md R58). -/
def State.reply (s : State) (v : Nat) : State := { s with replies := v :: s.replies }

/-- `WriteSRC(k, v)` (20_memory.md R56). -/
def hostWriteSrc (k v : Nat) (s : State) : Host.Outcome State Fault Refusal :=
  if Config.nbuf ≤ k then .refused (.noSuchCell k)
  else if 2 ^ Config.charW ≤ v then .refused (.valueTooWide v)
  else .next { s with src := s.src.write k (BitVec.ofNat Config.charW v) }

/-- `ReadSRC(k)` (20_memory.md R56). -/
def hostReadSrc (k : Nat) (s : State) : Host.Outcome State Fault Refusal :=
  if Config.nbuf ≤ k then .refused (.noSuchCell k)
  else match s.src.read k with
    | none => .fault (.unwrittenSrc k)
    | some v => .next (s.reply v.toNat)

/-- `ReadDST(k)` (20_memory.md R56). -/
def hostReadDst (k : Nat) (s : State) : Host.Outcome State Fault Refusal :=
  if Config.nbuf ≤ k then .refused (.noSuchCell k)
  else match s.dst.read k with
    | none => .fault (.unwrittenDst k)
    | some v => .next (s.reply v.toNat)

/-- `WriteReg(r, v)`: SRC_LEN and INT_IN only (20_memory.md R56). -/
def hostWriteReg (r : Reg) (v : Nat) (s : State) : Host.Outcome State Fault Refusal :=
  match r with
  | .srcLen =>
    if v < 2 ^ 24 then .next { s with srcLen := BitVec.ofNat 24 v } else .refused (.valueTooWide v)
  | .intIn =>
    if v < 2 ^ Config.intW then .next { s with intIn := BitVec.ofNat Config.intW v } else .refused (.valueTooWide v)
  | .outLen => .refused (.readOnlyRegister .outLen)
  | .intOut => .refused (.readOnlyRegister .intOut)
  | .status => .refused (.readOnlyRegister .status)
  | .errInfo => .refused (.readOnlyRegister .errInfo)

/-- `Issue(w)`: the command `w` to completion; an illegal word completes with E_ILLEGAL (30_encoding.md R76, R77). -/
def issueWord (w : Word) (s : State) : Host.Outcome State Fault Refusal :=
  match decode w with
  | .ok i => exec i s
  | .error _ => .next (raiseError .illegal 0 0 s)

/-- `Reset()`: every piece of the core's state at its reset value (70_reset_and_hazards.md R200); the host's own
actions to come and the values it has read are not the core's (log 15). -/
def hostReset (s : State) : State := { State.reset with host := s.host, replies := s.replies }

/-- One host action (20_memory.md R56). -/
def hostAct (a : HostAction) (s : State) : Host.Outcome State Fault Refusal :=
  match a with
  | .writeSrc k v => hostWriteSrc k v s
  | .readSrc k => hostReadSrc k s
  | .readDst k => hostReadDst k s
  | .writeReg r v => hostWriteReg r v s
  | .readReg r => .next (s.reply (s.readReg r))
  | .issue w => issueWord w s
  | .reset => .next (hostReset s)

/-- `WriteSRC(k, v0)`, `WriteSRC(k+1, v1)`, ... -/
def writeSrcActions : Nat → List Nat → List HostAction
  | _, [] => []
  | k, v :: vs => .writeSrc k v :: writeSrcActions (k + 1) vs

/-- `src.bytes v0, v1, ...` (30_encoding.md R81). -/
def srcBytes (vs : List Nat) : List HostAction := writeSrcActions 0 vs ++ [.writeReg .srcLen vs.length]

/-- `src.chars "..."`: the codes of the string's characters (30_encoding.md R81; ASCII, log 16). -/
def srcChars (cs : List Char) : List HostAction := srcBytes (cs.map Char.toNat)

/-- The cells of the last output, `DST[0..OUT_LEN-1]`, if all are written (70_reset_and_hazards.md R204). -/
def State.output (s : State) : Option (List Cell) := (List.range s.outLen.toNat).mapM s.dst.read

/-- `src.dst`: copies the last output into SRC (30_encoding.md R81). The host reads each cell it writes; with an
unwritten one the read faults, and there is no expansion. -/
def srcDst (s : State) : Option (List HostAction) := s.output.map fun cs => srcBytes (cs.map BitVec.toNat)

/-- `int.in v` (30_encoding.md R81). -/
def intIn (v : Nat) : List HostAction := [.writeReg .intIn v]

/-- `check OK`: reads STATUS; the program expects STATUS.CODE = 0 (30_encoding.md R81). -/
def checkOk : List HostAction := [.readReg .status]

/-- What `check OK` expects of the value read (30_encoding.md R81). -/
def checkOkPasses (reply : Nat) : Bool := statusCode (BitVec.ofNat 32 reply) == 0

/-- `createCodec "alphabet"`: `src.chars`, then LDALPHA (30_encoding.md R81). -/
def createCodec (alphabet : List Char) : List HostAction := srcChars alphabet ++ [.issue (encode .ldalpha)]

end Sys2Proof.Machine
end

