-- ==== Sys2Proof/Machine/Step.lean ====
section
/-! DEFINITION. One step: the host's next action, whole (spec/20_memory.md R57, R60). -/

namespace Sys2Proof.Machine

/-- One step takes the host's next action to its end; with none pending the core waits (70_reset_and_hazards.md R201;
log 3). -/
def step (s : State) : Host.Outcome State Fault Refusal :=
  match s.host with
  | [] => .next s
  | a :: rest => hostAct a { s with host := rest }

/-- The host is about to issue the word of a table row: the core fetches nothing, the host's next action is
`Issue(w)` (30_encoding.md R70, 20_memory.md R63; log 6). -/
def State.withFetchWord (s : State) (nbits w : Nat) : State :=
  { s with host := .issue (tableWord nbits w) :: s.host }

end Sys2Proof.Machine
end

