-- ==== Sys2Proof/Machine/Asm.lean ====
section
/-! DEFINITION. The assembler syntax of a command line (spec/30_encoding.md R80) and the lines of a host program
(spec/30_encoding.md R81). Lines are lists of characters; no other file of the model depends on this one. -/

namespace Sys2Proof.Machine

/-- The commands a mnemonic names (30_encoding.md R80). `createCodec` is LDALPHA or LDDEF by its operand. -/
inductive Mnemonic where
  | ldalpha
  | lddef
  | encbuf
  | encint
  | decbuf
  | decint
  | createCodec
  | dotWord
deriving DecidableEq, Repr

/-- The mnemonics and the source's API names, in lower case: a mnemonic is case-insensitive (30_encoding.md R80).
That an alias is so too is DEDUCED, that the directive `.word` is so too is a DESIGN CHOICE: R80 says neither
(log 14). -/
def mnemonicTable : List (List Char × Mnemonic) :=
  [("ldalpha".toList, .ldalpha),
   ("lddef".toList, .lddef),
   ("encbuf".toList, .encbuf),
   ("encint".toList, .encint),
   ("decbuf".toList, .decbuf),
   ("decint".toList, .decint),
   ("createcodec".toList, .createCodec),
   ("encodebuffer".toList, .encbuf),
   ("encodeint".toList, .encint),
   ("decodetobuffer".toList, .decbuf),
   ("decodetoint".toList, .decint),
   (".word".toList, .dotWord)]

/-- The command a name stands for; `none` for an unknown mnemonic. Every name is taken in lower case, `.word` included,
which R80 leaves open (DESIGN CHOICE, log 14). -/
def mnemonicOf (name : List Char) : Option Mnemonic := mnemonicTable.lookup (name.map Char.toLower)

/-- The value of a digit of a base up to 16. -/
def digitValue (base : Nat) (c : Char) : Option Nat :=
  let n := c.toLower.toNat
  let v := if 0x30 ≤ n ∧ n ≤ 0x39 then n - 0x30 else if 0x61 ≤ n ∧ n ≤ 0x66 then n - 0x57 else base
  if v < base then some v else none

/-- Read a list of digits, first digit most significant, onto the value read so far. -/
def readDigits (base : Nat) : List Char → Nat → Option Nat
  | [], acc => some acc
  | c :: cs, acc =>
    match digitValue base c with
    | none => none
    | some v => readDigits base cs (acc * base + v)

/-- A numeric operand: decimal, or hexadecimal after `0x` (30_encoding.md R80). Hexadecimal digits in either case and
the marker `0x` in lower case only: DESIGN CHOICE; which other texts are numbers: DEDUCED (log 14). -/
def readNumber : List Char → Option Nat
  | [] => none
  | ['0', 'x'] => none
  | '0' :: 'x' :: c :: cs => readDigits 16 (c :: cs) 0
  | cs => readDigits 10 cs 0

/-- The optional length operand of ENCBUF, ENCINT and DECBUF: absent, or a number in `1..2^24-1`; anything else is an
assembly error (30_encoding.md R80). -/
def readLength : Option (List Char) → Option (Option Nat)
  | none => some none
  | some cs =>
    match readNumber cs with
    | none => none
    | some n => if lenArgOk (some n) then some (some n) else none

/-- The word of a command that takes no operand (30_encoding.md R80). -/
def assembleBare (i : Instr) : Option (List Char) → Option Word
  | none => some (encode i)
  | some _ => none

/-- The word of a command with an optional length (30_encoding.md R80). -/
def assembleLength (f : Option Nat → Instr) (operand : Option (List Char)) : Option Word :=
  (readLength operand).map fun len => encode (f len)

/-- `.word w`: any 32-bit value, legal or not (30_encoding.md R80). Its operand is a number as the others are, and must
be there: DEDUCED (log 14). -/
def assembleWord : Option (List Char) → Option Word
  | none => none
  | some cs =>
    match readNumber cs with
    | none => none
    | some n => if n < 2 ^ 32 then some (BitVec.ofNat 32 n) else none

/-- The word a command line assembles to; `none` is an assembly error, and the assembler emits no word
(30_encoding.md R80). `createCodec` with any operand gives LDALPHA's word: DESIGN CHOICE (log 14). -/
def assemble (name : List Char) (operand : Option (List Char)) : Option Word :=
  match mnemonicOf name with
  | none => none
  | some .ldalpha => assembleBare .ldalpha operand
  | some .lddef => assembleBare .lddef operand
  | some .encbuf => assembleLength .encbuf operand
  | some .encint => assembleLength .encint operand
  | some .decbuf => assembleLength .decbuf operand
  | some .decint => assembleBare .decint operand
  | some .createCodec => some (encode (if operand.isSome then .ldalpha else .lddef))
  | some .dotWord => assembleWord operand

/-- The words of a line, separated by spaces alone (DESIGN CHOICE, log 14); `cur` holds the word being
read, last character first. -/
def lineWords : List Char → List Char → List (List Char)
  | [], cur => if cur.isEmpty then [] else [cur.reverse]
  | c :: cs, cur =>
    if c = ' ' then (if cur.isEmpty then lineWords cs [] else cur.reverse :: lineWords cs [])
    else lineWords cs (c :: cur)

/-- What a line of text assembles to. -/
inductive AssembledLine where
  /-- A blank line or a comment. -/
  | nothing
  | word (w : Word)
  /-- An assembly error. -/
  | error
deriving DecidableEq, Repr

/-- One command per line, `;` starting a comment (30_encoding.md R80). A blank line emits nothing and a second operand
is an error: DESIGN CHOICE (log 14). -/
def assembleLine (line : List Char) : AssembledLine :=
  match lineWords (line.takeWhile (· ≠ ';')) [] with
  | [] => .nothing
  | [name] => match assemble name none with
    | none => .error
    | some w => .word w
  | [name, operand] => match assemble name (some operand) with
    | none => .error
    | some w => .word w
  | _ => .error

/-- A line of a host program: a command line, or a host pseudo-instruction (30_encoding.md R80, R81). -/
inductive ProgramLine where
  | command (name : List Char) (operand : Option (List Char))
  | srcBytes (vs : List Nat)
  | srcChars (cs : List Char)
  | srcDst
  | intIn (v : Nat)
  | checkOk
  | createCodec (alphabet : List Char)
deriving DecidableEq, Repr

/-- The host actions a program line stands for, in the state the core is in when the host comes to it; `none` for an
assembly error (30_encoding.md R81). -/
def ProgramLine.expand (s : State) : ProgramLine → Option (List HostAction)
  | .command name operand => (assemble name operand).map fun w => [.issue w]
  | .srcBytes vs => some (Machine.srcBytes vs)
  | .srcChars cs => some (Machine.srcChars cs)
  | .srcDst => Machine.srcDst s
  | .intIn v => some (Machine.intIn v)
  | .checkOk => some Machine.checkOk
  | .createCodec alphabet => some (Machine.createCodec alphabet)

end Sys2Proof.Machine
end

