-- ==== Sys2Proof/Safety.lean ====
section
/-! DEFINITION. The terms claims are stated in: what it is for SRC and DST to hold a sequence, for a command to succeed
or to fail, a step to be safe, and the invariants of the machine. -/

namespace Sys2Proof.Machine

/-- The input of a command that reads SRC is `cs`: SRC_LEN is its length and `SRC[k]` is its cell `k`
(30_encoding.md R72, 70_reset_and_hazards.md R203). -/
def State.srcHolds (s : State) (cs : List Cell) : Prop :=
  s.srcLen.toNat = cs.length ∧ ∀ k, k < cs.length → s.src.read k = cs[k]?

/-- The result in DST is `cs`: OUT_LEN is its length and `DST[k]` is its cell `k` (70_reset_and_hazards.md R204). -/
def State.dstHolds (s : State) (cs : List Cell) : Prop :=
  s.outLen.toNat = cs.length ∧ ∀ k, k < cs.length → s.dst.read k = cs[k]?

/-- Every cell of SRC below SRC_LEN has been written (70_reset_and_hazards.md R203). -/
def State.srcWritten (s : State) : Prop := ∀ k, k < s.srcLen.toNat → (s.src.read k).isSome

/-- A command completed with success: CODE 0 and ERR_INFO 0, STICKY and the reserved bits as before
(60_exceptions.md R187). -/
structure Succeeded (s t : State) : Prop where
  code : statusCode t.status = 0
  sticky : statusSticky t.status = statusSticky s.status
  reserved : statusReserved t.status = statusReserved s.status
  info : t.errInfo = 0

/-- A command completed with a failure of the given code, SUB and POS, and nothing but STATUS and ERR_INFO changed
(60_exceptions.md R185, R186). -/
structure FailedWith (code : BitVec 4) (sub pos : Nat) (s t : State) : Prop where
  code : statusCode t.status = code
  sticky : statusSticky t.status = 1
  reserved : statusReserved t.status = statusReserved s.status
  sub : (errSub t.errInfo).toNat = sub
  pos : (errPos t.errInfo).toNat = pos
  infoReserved : errReserved t.errInfo = 0
  frame : t = { s with status := t.status, errInfo := t.errInfo }

/-- The reverse table is the reverse of the alphabet store (10_state.md R22). -/
structure ReverseOf (lut : Alphabet) (rlut : ReverseMap) : Prop where
  valid : ∀ c, (rlut.entry c).valid = true ↔ ∃ d, lut.char d = c
  index : ∀ d, (rlut.entry (lut.char d)).idx = d
  absent : ∀ c, (rlut.entry c).valid = false → (rlut.entry c).idx = 0

/-- The invariant of the codec (10_state.md R22). -/
structure CodecInv (s : State) : Prop where
  distinct : ∀ d e, s.lut.char d = s.lut.char e → d = e
  reverse : ReverseOf s.lut s.rlut

/-- STATUS and ERR_INFO hold a legal code, and agree: reserved bits 0, a failing code leaves STICKY set, a success
leaves ERR_INFO 0 (10_state.md R28, R29, 60_exceptions.md R185). Code 7 is E_BYTE, which cells of 8 bits cannot raise
(20_memory.md R54). -/
structure StatusInv (s : State) : Prop where
  code : (statusCode s.status).toNat ≤ 6
  reserved : statusReserved s.status = 0
  sticky : statusCode s.status ≠ 0 → statusSticky s.status = 1
  info : statusCode s.status = 0 → s.errInfo = 0
  infoReserved : errReserved s.errInfo = 0

/-- The memories are in canonical form and hold cells `0..NBUF-1` only (20_memory.md R50). -/
structure MemoryInv (s : State) : Prop where
  srcWf : s.src.wf
  dstWf : s.dst.wf
  srcRange : ∀ k, (s.src.read k).isSome → k < Config.nbuf
  dstRange : ∀ k, (s.dst.read k).isSome → k < Config.nbuf

/-- The result delimited by OUT_LEN fits DST and every cell of it has been written (10_state.md R27,
20_memory.md R51). -/
structure OutputInv (s : State) : Prop where
  fits : s.outLen.toNat ≤ Config.nbuf
  written : ∀ k, k < s.outLen.toNat → (s.dst.read k).isSome

/-- The invariant of the machine. -/
structure Inv (s : State) : Prop where
  codec : CodecInv s
  status : StatusInv s
  memory : MemoryInv s
  output : OutputInv s

/-- A state that a run from reset, under some sequence of host actions, comes to. -/
inductive Reachable : State → Prop where
  | reset (actions : List HostAction) : Reachable { State.reset with host := actions }
  | step {s t : State} : Reachable s → step s = .next t → Reachable t

/-- A step is safe when it does not stop with a modelling fault, that is, reads no unwritten cell
(93_implementation_defined.md S2, S3). -/
def Safe (s : State) : Prop := ∀ f, step s ≠ .fault f

/-- The commands that read SRC (30_encoding.md R72). -/
def readsSrc : Instr → Bool
  | .ldalpha => true
  | .lddef => false
  | .encbuf _ => true
  | .encint _ => false
  | .decbuf _ => true
  | .decint => true

/-- The operands of a command are in place: if it reads SRC, and SRC_LEN is within the capacity, every cell it may read
has been written (70_reset_and_hazards.md R203). -/
def OperandsReady (i : Instr) (s : State) : Prop :=
  readsSrc i = true → s.srcLen.toNat ≤ Config.nbuf → s.srcWritten

/-- The closed form `DEF[i]` of the default alphabet (40_construction.md R101). -/
def defaultCode (i : Nat) : Nat :=
  if i = 0 then 0x2D
  else if i ≤ 10 then 0x30 + (i - 1)
  else if i ≤ 36 then 0x41 + (i - 11)
  else if i = 37 then 0x5F
  else 0x61 + (i - 38)

/-- A strictly increasing alphabet (41_encoder.md R129). -/
def Alphabet.increasing (lut : Alphabet) : Prop := ∀ d e : Digit, d < e → lut.char d < lut.char e

/-- The length argument of a command in a state, or its default. -/
def outputLength (len : Option Nat) (default : Nat) : Nat :=
  match len with
  | none => default
  | some n => n

/-- The length of the output a command is to write to DST in a state; 0 for a command that writes none
(41_encoder.md R122, R134, 42_decoder.md R153). -/
def resultLength (i : Instr) (s : State) : Nat :=
  match i with
  | .ldalpha => 0
  | .lddef => 0
  | .encbuf len => outputLength len (ldefBuf s.srcLen.toNat)
  | .encint len => outputLength len (ldefInt s.intIn.toNat)
  | .decbuf bytes => outputLength bytes (ldefDec s.srcLen.toNat)
  | .decint => 0

/-- A word is illegal by its fields OP, RSV and LEN (30_encoding.md R77). -/
def illegalFields (op rsv len : Nat) : Prop :=
  op = 0 ∨ 7 ≤ op ∨ rsv ≠ 0 ∨ ((op = 1 ∨ op = 2 ∨ op = 6) ∧ len ≠ 0)

/-- The word with the given fields (30_encoding.md R70). -/
def wordOfFields (op rsv len : Nat) : Word := BitVec.ofNat 32 (len * 256 + rsv * 16 + op)

end Sys2Proof.Machine
end

