-- ==== Sys2Proof/Certificates/Slice0/Obligations.lean ====
section
/-! DEFINITION. The statements about the core, from the numbered rules of spec/. -/

open Sys2Proof Sys2Proof.Machine

/-! ## The command word -/

/-- 30_encoding.md R76, R75: what every word, given by its fields OP, RSV and LEN, decodes to; a word that decodes to
no command ends with E_ILLEGAL(0, 0). -/
def Obligations.EveryWordDecodesByItsFields : Prop :=
  ∀ op rsv len : Nat, op < 16 → rsv < 16 → len < 2 ^ 24 →
    (illegalFields op rsv len → (∃ e, decode (wordOfFields op rsv len) = .error e) ∧
      ∀ s : State, ∃ t, issueWord (wordOfFields op rsv len) s = .next t ∧ FailedWith 6 0 0 s t) ∧
    (¬ illegalFields op rsv len →
      (op = 1 → decode (wordOfFields op rsv len) = .ok .ldalpha) ∧
      (op = 2 → decode (wordOfFields op rsv len) = .ok .lddef) ∧
      (op = 3 → decode (wordOfFields op rsv len) = .ok (.encbuf (if len = 0 then none else some len))) ∧
      (op = 4 → decode (wordOfFields op rsv len) = .ok (.encint (if len = 0 then none else some len))) ∧
      (op = 5 → decode (wordOfFields op rsv len) = .ok (.decbuf (if len = 0 then none else some len))) ∧
      (op = 6 → decode (wordOfFields op rsv len) = .ok .decint))

/-- Decoding the word of a well-formed command gives the command back. -/
def Obligations.DecodeOfEncodeIsTheCommand : Prop :=
  ∀ i : Instr, i.wf = true → decode (encode i) = .ok i

/-- A word that decodes to a command is that command's word, and the command is well-formed: each command has one
word. -/
def Obligations.EncodeOfDecodeIsTheWord : Prop :=
  ∀ (w : Word) (i : Instr), decode w = .ok i → i.wf = true ∧ encode i = w

/-- 30_encoding.md R82 (marked derived in the spec): the words of the six commands. -/
def Obligations.DocumentedWordsDecode : Prop :=
  decode 0x00000001 = .ok .ldalpha ∧ decode 0x00000002 = .ok .lddef ∧ decode 0x00000003 = .ok (.encbuf none) ∧
  decode 0x00000004 = .ok (.encint none) ∧ decode 0x00000005 = .ok (.decbuf none) ∧ decode 0x00000006 = .ok .decint ∧
  decode 0x00000203 = .ok (.encbuf (some 2)) ∧ decode 0x00000404 = .ok (.encint (some 4)) ∧
  decode 0x00000305 = .ok (.decbuf (some 3)) ∧ decode 0xFFFFFF03 = .ok (.encbuf (some 0xFFFFFF))

/-! ## The step and the host's actions -/

/-- A step on an issued word that decodes runs the command; `withFetchWord` makes the next step run the command its
word decodes to. The queue `host` is the model's own (log 3, log 6). -/
def Obligations.StepRunsTheDecodedCommand : Prop :=
  (∀ (s : State) (w : Word) (rest : List HostAction) (i : Instr),
    s.host = .issue w :: rest → decode w = .ok i → step s = exec i { s with host := rest }) ∧
  (∀ (s : State) (nbits w : Nat) (i : Instr),
    decodeTableWord nbits w = some i → step (s.withFetchWord nbits w) = exec i s)

/-- 70_reset_and_hazards.md R201: with no action of the host pending the core waits, and nothing changes. That
waiting is a step is the model's own (log 3). -/
def Obligations.CoreWaitsForTheHost : Prop := ∀ s : State, s.host = [] → step s = .next s

/-- 30_encoding.md R77: an illegal word completes with E_ILLEGAL and changes nothing but STATUS and ERR_INFO, and
every other word decodes to a command. -/
def Obligations.IllegalWordsCompleteWithIllegal : Prop :=
  ∀ op rsv len : Nat, op < 16 → rsv < 16 → len < 2 ^ 24 →
    (¬ illegalFields op rsv len → ∃ i : Instr, decode (wordOfFields op rsv len) = .ok i) ∧
    (illegalFields op rsv len → ∀ (s : State) (rest : List HostAction),
      s.host = .issue (wordOfFields op rsv len) :: rest →
      ∃ t, step s = .next t ∧ FailedWith 6 0 0 { s with host := rest } t)

/-- 20_memory.md R56, the rows WriteSRC and WriteReg: their effect where the precondition holds, and nothing else. -/
def Obligations.HostWritesDoAsTabled : Prop :=
  ∀ (s : State) (rest : List HostAction),
    (∀ k v, s.host = .writeSrc k v :: rest → k < Config.nbuf → v < 2 ^ 8 →
      ∃ t, step s = .next t ∧ t.src.read k = some (BitVec.ofNat 8 v) ∧ (∀ j, j ≠ k → t.src.read j = s.src.read j) ∧
        t = { s with host := rest, src := t.src }) ∧
    (∀ v, s.host = .writeReg .srcLen v :: rest → v < 2 ^ 24 →
      step s = .next { s with host := rest, srcLen := BitVec.ofNat 24 v }) ∧
    (∀ v, s.host = .writeReg .intIn v :: rest → v < 2 ^ 53 →
      step s = .next { s with host := rest, intIn := BitVec.ofNat 53 v })

/-- 20_memory.md R56, the rows ReadSRC, ReadDST and ReadReg: the value returned; a cell nothing has written faults
(93_implementation_defined.md S3). Where the value is put, `replies`, is the model's own (log 4). -/
def Obligations.HostReadsReturnTheValue : Prop :=
  ∀ (s : State) (rest : List HostAction),
    (∀ k v, s.host = .readSrc k :: rest → k < Config.nbuf → s.src.read k = some v →
      step s = .next { s with host := rest, replies := v.toNat :: s.replies }) ∧
    (∀ k v, s.host = .readDst k :: rest → k < Config.nbuf → s.dst.read k = some v →
      step s = .next { s with host := rest, replies := v.toNat :: s.replies }) ∧
    (∀ k, s.host = .readSrc k :: rest → k < Config.nbuf → s.src.read k = none → step s = .fault (.unwrittenSrc k)) ∧
    (∀ k, s.host = .readDst k :: rest → k < Config.nbuf → s.dst.read k = none → step s = .fault (.unwrittenDst k)) ∧
    (s.host = .readReg .srcLen :: rest →
      step s = .next { s with host := rest, replies := s.srcLen.toNat :: s.replies }) ∧
    (s.host = .readReg .intIn :: rest →
      step s = .next { s with host := rest, replies := s.intIn.toNat :: s.replies }) ∧
    (s.host = .readReg .outLen :: rest →
      step s = .next { s with host := rest, replies := s.outLen.toNat :: s.replies }) ∧
    (s.host = .readReg .intOut :: rest →
      step s = .next { s with host := rest, replies := s.intOut.toNat :: s.replies }) ∧
    (s.host = .readReg .status :: rest →
      step s = .next { s with host := rest, replies := s.status.toNat :: s.replies }) ∧
    (s.host = .readReg .errInfo :: rest →
      step s = .next { s with host := rest, replies := s.errInfo.toNat :: s.replies })

/-- 20_memory.md R56: an action whose precondition fails is refused (which refusal, log 9). -/
def Obligations.OtherHostActionsAreRefused : Prop :=
  ∀ (s : State) (rest : List HostAction),
    (∀ k v, s.host = .writeSrc k v :: rest → Config.nbuf ≤ k ∨ 2 ^ 8 ≤ v → ∃ r, step s = .refused r) ∧
    (∀ k, s.host = .readSrc k :: rest → Config.nbuf ≤ k → ∃ r, step s = .refused r) ∧
    (∀ k, s.host = .readDst k :: rest → Config.nbuf ≤ k → ∃ r, step s = .refused r) ∧
    (∀ v, s.host = .writeReg .srcLen v :: rest → 2 ^ 24 ≤ v → ∃ r, step s = .refused r) ∧
    (∀ v, s.host = .writeReg .intIn v :: rest → 2 ^ 53 ≤ v → ∃ r, step s = .refused r) ∧
    (∀ r v, s.host = .writeReg r v :: rest → r ≠ .srcLen → r ≠ .intIn → ∃ q, step s = .refused q)

/-- 20_memory.md R58 (its last sentence marked derived in the spec; `host` and `replies` are the model's own, log 3,
log 4): host reads change no state of the core; only WriteSRC, WriteReg, Issue and Reset do; a command never changes
its own inputs, and issuing a command that completed once more completes with the same state. -/
def Obligations.ReadsAndRepeatedCommandsChangeNothing : Prop :=
  (∀ (s t : State) (a : HostAction) (rest : List HostAction), s.host = a :: rest → step s = .next t →
    (∀ k v, a ≠ .writeSrc k v) → (∀ r v, a ≠ .writeReg r v) → (∀ w, a ≠ .issue w) → a ≠ .reset →
    t = { s with host := rest, replies := t.replies }) ∧
  (∀ (i : Instr) (s t : State), exec i s = .next t →
    t.src = s.src ∧ t.srcLen = s.srcLen ∧ t.intIn = s.intIn ∧ exec i t = .next t)

/-- 30_encoding.md R81, `src.dst`, as actions in the model's own queue (log 3), expanded with the values DST holds
and recording no replies, the model's reading (log 18): run as host actions, it copies the last output into SRC, sets
SRC_LEN to its length and changes nothing else. -/
def Obligations.SrcDstCopiesTheOutput : Prop :=
  ∀ (s : State) (out : List Cell) (rest : List HostAction),
    s.dstHolds out → out.length ≤ Config.nbuf →
    ∃ actions t, srcDst s = some actions ∧
      Host.Core.run core actions.length { s with host := actions ++ rest } = .next t ∧
      t.srcHolds out ∧ (∀ k, out.length ≤ k → t.src.read k = s.src.read k) ∧
      t = { s with src := t.src, srcLen := s.outLen, host := rest }

/-- 30_encoding.md R80, its details as log 14 has them: a command with a length operand assembles exactly when the
number is in `1..2^24-1`, to the command's word; the other commands take no operand; `.word` issues any 32-bit value;
letter case does not matter, of an alias and of `.word` by log 14; the source's API names are aliases, `createCodec`
by whether an alphabet is given; any other name is an error. A list of decimal digits, and `0x` with a list of
hexadecimal digits in either case, is read as its positional value. -/
def Obligations.AssemblerEmitsTheCommandWords : Prop :=
  (assemble "LDALPHA".toList none = some 0x00000001 ∧ assemble "LDDEF".toList none = some 0x00000002 ∧
    assemble "ENCBUF".toList none = some 0x00000003 ∧ assemble "ENCINT".toList none = some 0x00000004 ∧
    assemble "DECBUF".toList none = some 0x00000005 ∧ assemble "DECINT".toList none = some 0x00000006 ∧
    assemble ".word".toList none = none) ∧
  (∀ (cs : List Char),
    assemble "LDALPHA".toList (some cs) = none ∧ assemble "LDDEF".toList (some cs) = none ∧
    assemble "DECINT".toList (some cs) = none ∧
    (readNumber cs = none → assemble "ENCBUF".toList (some cs) = none ∧ assemble "ENCINT".toList (some cs) = none ∧
      assemble "DECBUF".toList (some cs) = none ∧ assemble ".word".toList (some cs) = none) ∧
    ∀ n, readNumber cs = some n →
      (1 ≤ n → n < 2 ^ 24 →
        assemble "ENCBUF".toList (some cs) = some (BitVec.ofNat 32 (n * 256 + 3)) ∧
        assemble "ENCINT".toList (some cs) = some (BitVec.ofNat 32 (n * 256 + 4)) ∧
        assemble "DECBUF".toList (some cs) = some (BitVec.ofNat 32 (n * 256 + 5))) ∧
      (n = 0 ∨ 2 ^ 24 ≤ n →
        assemble "ENCBUF".toList (some cs) = none ∧ assemble "ENCINT".toList (some cs) = none ∧
        assemble "DECBUF".toList (some cs) = none) ∧
      (n < 2 ^ 32 → assemble ".word".toList (some cs) = some (BitVec.ofNat 32 n)) ∧
      (2 ^ 32 ≤ n → assemble ".word".toList (some cs) = none)) ∧
  (∀ ds : List Nat, ds ≠ [] →
    ((∀ d ∈ ds, d < 10) → readNumber (ds.map Nat.digitChar) = some (beval 10 ds)) ∧
    ((∀ d ∈ ds, d < 16) → ∀ cs : List Char, cs.map Char.toLower = ds.map Nat.digitChar →
      readNumber ('0' :: 'x' :: cs) = some (beval 16 ds))) ∧
  (∀ (name name' : List Char) (operand : Option (List Char)), name.map Char.toLower = name'.map Char.toLower →
    assemble name operand = assemble name' operand) ∧
  (∀ operand : Option (List Char),
    assemble "encodeBuffer".toList operand = assemble "ENCBUF".toList operand ∧
    assemble "encodeInt".toList operand = assemble "ENCINT".toList operand ∧
    assemble "decodeToBuffer".toList operand = assemble "DECBUF".toList operand ∧
    assemble "decodeToInt".toList operand = assemble "DECINT".toList operand) ∧
  (assemble "createCodec".toList none = some 0x00000002 ∧
    ∀ cs : List Char, assemble "createCodec".toList (some cs) = some 0x00000001) ∧
  ∀ (name : List Char) (operand : Option (List Char)),
    name.map Char.toLower ∉ ["ldalpha".toList, "lddef".toList, "encbuf".toList, "encint".toList, "decbuf".toList,
      "decint".toList, "createcodec".toList, "encodebuffer".toList, "encodeint".toList, "decodetobuffer".toList,
      "decodetoint".toList, ".word".toList] →
    assemble name operand = none

/-- 30_encoding.md R80: a text that is read as a number is a list of decimal digits, or `0x` and a list of
hexadecimal digits, and the number is its positional value. Which texts are numbers beyond the rule's words, as the
letter case of `0x` and of the digits, is the model's choice (log 14). -/
def Obligations.OnlyDecimalAndHexadecimalTextsAreNumbers : Prop :=
  ∀ (cs : List Char) (n : Nat), readNumber cs = some n →
    (∃ ds : List Nat, ds ≠ [] ∧ (∀ d ∈ ds, d < 10) ∧ cs = ds.map Nat.digitChar ∧ n = beval 10 ds) ∨
    (∃ (ds : List Nat) (digits : List Char), ds ≠ [] ∧ (∀ d ∈ ds, d < 16) ∧ cs = '0' :: 'x' :: digits ∧
      digits.map Char.toLower = ds.map Nat.digitChar ∧ n = beval 16 ds)

/-- 30_encoding.md R80: one command per line, and a semicolon starts a comment. That spaces separate the words, and
that a line without words emits nothing, is the model's choice (log 14). -/
def Obligations.LinesAssembleToTheirCommand : Prop :=
  (∀ line comment : List Char, assembleLine (line ++ ';' :: comment) = assembleLine line) ∧
  (∀ n, assembleLine (List.replicate n ' ') = .nothing) ∧
  ∀ name : List Char, name ≠ [] → (∀ c ∈ name, c ≠ ' ' ∧ c ≠ ';') →
    assembleLine name = (assemble name none).elim .error .word ∧
    ∀ (operand : List Char) (n : Nat), operand ≠ [] → (∀ c ∈ operand, c ≠ ' ' ∧ c ≠ ';') →
      assembleLine (name ++ List.replicate (n + 1) ' ' ++ operand) = (assemble name (some operand)).elim .error .word

/-! ## Reset and the codec -/

/-- 70_reset_and_hazards.md R200: Reset puts every piece of the core's state at its reset value, with `State.reset`
that state. -/
def Obligations.ResetGivesTheResetValues : Prop :=
  (∀ d : Digit, (State.reset.lut.char d).toNat = defaultCode d.toNat) ∧
  (∀ d : Digit, State.reset.rlut.entry (State.reset.lut.char d) = ⟨true, d⟩) ∧
  (∀ c : Cell, (∀ d, State.reset.lut.char d ≠ c) → State.reset.rlut.entry c = ⟨false, 0⟩) ∧
  (∀ k, State.reset.src.read k = none ∧ State.reset.dst.read k = none) ∧
  State.reset.srcLen = 0 ∧ State.reset.intIn = 0 ∧ State.reset.outLen = 0 ∧ State.reset.intOut = 0 ∧
  State.reset.status = 0 ∧ State.reset.errInfo = 0 ∧
  (∀ (s : State) (rest : List HostAction), s.host = .reset :: rest →
    ∃ t, step s = .next t ∧ { t with host := [], replies := [] } = State.reset)

/-- 40_construction.md R102 (marked derived in the spec): the default alphabet is strictly increasing, its first
character is `-` and its last `z`. -/
def Obligations.DefaultAlphabetIsSorted : Prop :=
  State.reset.lut.increasing ∧ State.reset.lut.char 0 = 0x2D ∧ State.reset.lut.char 63 = 0x7A

/-- 40_construction.md R104, R105: LDALPHA on 64 distinct characters loads them in the order supplied, derives the
reverse table and changes nothing else; otherwise it reports the first check that fails, of the capacity, the length
and the smallest index that repeats an earlier character. -/
def Obligations.LdalphaLoadsOrReportsTheFirstFailure : Prop :=
  decode 0x00000001 = .ok .ldalpha ∧
  ∀ s : State,
    (∀ cs : List Cell, s.srcHolds cs → cs.length = 64 → cs.Nodup →
      ∃ t, exec .ldalpha s = .next t ∧ (∀ d : Digit, cs[d.toNat]? = some (t.lut.char d)) ∧
        ReverseOf t.lut t.rlut ∧ Succeeded s t ∧
        t = { s with lut := t.lut, rlut := t.rlut, status := t.status, errInfo := t.errInfo }) ∧
    (Config.nbuf < s.srcLen.toNat → ∃ t, exec .ldalpha s = .next t ∧ FailedWith 5 1 0 s t) ∧
    (s.srcLen.toNat ≤ Config.nbuf → s.srcLen.toNat ≠ 64 →
      ∃ t, exec .ldalpha s = .next t ∧ FailedWith 1 1 s.srcLen.toNat s t) ∧
    (∀ (cs : List Cell) (k : Nat) (c : Cell), s.srcHolds cs → cs.length = 64 → (cs.take k).Nodup → cs[k]? = some c →
      c ∈ cs.take k → ∃ t, exec .ldalpha s = .next t ∧ FailedWith 1 2 k s t)

/-- 40_construction.md R103: on written input within the capacity, LDALPHA succeeds exactly on 64 characters without
a repeat, whatever their codes, and ends with E_ALPHABET on any other. -/
def Obligations.LdalphaSucceedsExactlyOnValidAlphabets : Prop :=
  ∀ (s : State) (cs : List Cell), s.srcHolds cs → cs.length ≤ Config.nbuf →
    ∃ t, exec .ldalpha s = .next t ∧
      ((cs.length = 64 ∧ ∀ i j, i < j → j < 64 → cs[i]? ≠ cs[j]?) → statusCode t.status = 0) ∧
      (¬ (cs.length = 64 ∧ ∀ i j, i < j → j < 64 → cs[i]? ≠ cs[j]?) → statusCode t.status = 1)

/-- 40_construction.md R104, 42_decoder.md R153, R162, in the order the pseudocode reads the cells, the model's
reading (log 8): a repeated character of LDALPHA, or an invalid character of DECBUF and DECINT, is reported whatever
the cells after it hold, be they written or not. A given length of 0, which no word encodes, is covered as log 12 has
it. -/
def Obligations.LaterCellsDoNotHideTheFirstFailure : Prop :=
  ∀ (s : State) (cs : List Cell) (c : Cell), (∀ k, k < cs.length → s.src.read k = cs[k]?) →
    s.src.read cs.length = some c → cs.length < s.srcLen.toNat →
    (s.srcLen.toNat = 64 → cs.Nodup → c ∈ cs →
      ∃ t, exec .ldalpha s = .next t ∧ FailedWith 1 2 cs.length s t) ∧
    (s.srcLen.toNat ≤ Config.nbuf → (∀ x ∈ cs, (s.rlut.entry x).valid = true) → (s.rlut.entry c).valid = false →
      (∀ bytes, ∃ t, exec (.decbuf bytes) s = .next t ∧ FailedWith 3 0 cs.length s t) ∧
      ∃ t, exec .decint s = .next t ∧ FailedWith 3 0 cs.length s t)

/-- 40_construction.md R108: LDDEF, in every state, restores the default codec and changes nothing else. -/
def Obligations.LddefRestoresTheDefaultCodec : Prop :=
  decode 0x00000002 = .ok .lddef ∧
  ∀ s : State, ∃ t, exec .lddef s = .next t ∧ (∀ d : Digit, (t.lut.char d).toNat = defaultCode d.toNat) ∧
    ReverseOf t.lut t.rlut ∧ t.lut = State.reset.lut ∧ t.rlut = State.reset.rlut ∧ Succeeded s t ∧
    t = { s with lut := t.lut, rlut := t.rlut, status := t.status, errInfo := t.errInfo }

/-- 10_state.md R20, R21, 40_construction.md R106, R107: a step leaves LUT and RLUT as they are unless it is a reset
or a successful LDALPHA or LDDEF. -/
def Obligations.OnlyConstructionWritesTheCodec : Prop :=
  ∀ s t : State, step s = .next t →
    (t.lut = s.lut ∧ t.rlut = s.rlut) ∨ (∃ rest, s.host = .reset :: rest) ∨
      ∃ w rest, s.host = .issue w :: rest ∧ (decode w = .ok .ldalpha ∨ decode w = .ok .lddef) ∧
        statusCode t.status = 0

/-! ## Encoding -/

/-- 00_scope.md R14: `BEval256` and `BEval64` are the positional sums. -/
def Obligations.PositionalValuesAreTheSums : Prop :=
  (∀ b : List Cell, bufferValue b = ∑ j : Fin b.length, b[j].toNat * 256 ^ (b.length - 1 - j.val)) ∧
  (∀ d : List Digit, stringValue d = ∑ k : Fin d.length, d[k].toNat * 64 ^ (d.length - 1 - k.val))

/-- 41_encoder.md R122: ENCBUF writes the low `L` base-64 digits of the buffer's big-endian value, most significant
first, through LUT; OUT_LEN is `L`; every other cell and register is unchanged. It fails with E_CAPACITY, SUB 1 on a
longer input than NBUF, and else SUB 2 on a longer output. -/
def Obligations.EncbufWritesTheLowDigitsOrReportsTheFirstFailure : Prop :=
  (∀ n : Nat, n < 2 ^ 24 → decode (wordOfFields 3 0 n) = .ok (.encbuf (if n = 0 then none else some n))) ∧
  ∀ (s : State) (len : Option Nat), len ≠ some 0 →
    (∀ cs : List Cell, s.srcHolds cs → cs.length ≤ Config.nbuf →
      outputLength len ((8 * cs.length + 5) / 6) ≤ Config.nbuf →
      ∃ t, exec (.encbuf len) s = .next t ∧
        t.outLen.toNat = outputLength len ((8 * cs.length + 5) / 6) ∧
        (∀ k, k < t.outLen.toNat → t.dst.read k =
          some (s.lut.char (BitVec.ofNat 6 (bufferValue cs / 64 ^ (t.outLen.toNat - 1 - k))))) ∧
        (∀ k, t.outLen.toNat ≤ k → t.dst.read k = s.dst.read k) ∧ Succeeded s t ∧
        t = { s with dst := t.dst, outLen := t.outLen, status := t.status, errInfo := t.errInfo }) ∧
    (Config.nbuf < s.srcLen.toNat → ∃ t, exec (.encbuf len) s = .next t ∧ FailedWith 5 1 0 s t) ∧
    (∀ cs : List Cell, s.srcHolds cs → cs.length ≤ Config.nbuf →
      Config.nbuf < outputLength len ((8 * cs.length + 5) / 6) →
      ∃ t, exec (.encbuf len) s = .next t ∧ FailedWith 5 2 0 s t)

/-- 60_exceptions.md R182 (its last part, marked derived in the spec): with LEN omitted, ENCBUF raises SUB 2 exactly
when SRC_LEN > (3 * NBUF) div 4. -/
def Obligations.EncbufDefaultOutputCapacity : Prop :=
  ∀ (s : State) (cs : List Cell), s.srcHolds cs → cs.length ≤ Config.nbuf →
    ((∃ t, exec (.encbuf none) s = .next t ∧ FailedWith 5 2 0 s t) ↔ 3 * Config.nbuf / 4 < cs.length)

/-- 41_encoder.md R134: ENCINT writes the `L` base-64 digits of INT_IN, most significant first, through LUT; OUT_LEN
is `L`; every other cell and register is unchanged. It fails with E_CAPACITY, SUB 2 on a longer output than NBUF, and
else with E_BOUNDS where the integer does not fit a given length. -/
def Obligations.EncintWritesTheDigitsOrReportsTheFirstFailure : Prop :=
  (∀ n : Nat, n < 2 ^ 24 → decode (wordOfFields 4 0 n) = .ok (.encint (if n = 0 then none else some n))) ∧
  ∀ s : State,
    (∀ len : Option Nat, len ≠ some 0 → outputLength len (ldefInt s.intIn.toNat) ≤ Config.nbuf →
      (∀ n, len = some n → s.intIn.toNat < 64 ^ n) →
      ∃ t, exec (.encint len) s = .next t ∧ t.outLen.toNat = outputLength len (ldefInt s.intIn.toNat) ∧
        (∀ k, k < t.outLen.toNat → t.dst.read k =
          some (s.lut.char (BitVec.ofNat 6 (s.intIn.toNat / 64 ^ (t.outLen.toNat - 1 - k))))) ∧
        (∀ k, t.outLen.toNat ≤ k → t.dst.read k = s.dst.read k) ∧ Succeeded s t ∧
        t = { s with dst := t.dst, outLen := t.outLen, status := t.status, errInfo := t.errInfo }) ∧
    (∀ n : Nat, Config.nbuf < n → ∃ t, exec (.encint (some n)) s = .next t ∧ FailedWith 5 2 0 s t) ∧
    (∀ n : Nat, 1 ≤ n → n ≤ Config.nbuf → 64 ^ n ≤ s.intIn.toNat →
      ∃ t, exec (.encint (some n)) s = .next t ∧ FailedWith 2 0 0 s t)

/-- 41_encoder.md R131 (marked derived in the spec), 60_exceptions.md R183: with LEN omitted ENCINT succeeds in every
state, and the integer fits the default length. -/
def Obligations.EncintWithLengthOmittedAlwaysSucceeds : Prop :=
  ∀ s : State, s.intIn.toNat < 64 ^ ldefInt s.intIn.toNat ∧
    ∃ t, exec (.encint none) s = .next t ∧ statusCode t.status = 0

/-- 41_encoder.md R130: the default length of ENCINT: `clog64` (00_scope.md R16) is the least exponent that reaches
`num`, and a power of two gets one digit more; with LEN omitted ENCINT writes that many characters. -/
def Obligations.EncintDefaultLengthIsTheRule : Prop :=
  ldefInt 0 = 1 ∧
  (∀ num k : Nat, 1 ≤ num → num ≤ 64 ^ k → (∀ j, j < k → 64 ^ j < num) →
    ((∃ e, num = 2 ^ e) → ldefInt num = max 1 (k + 1)) ∧ ((¬ ∃ e, num = 2 ^ e) → ldefInt num = max 1 k)) ∧
  ∀ s : State, ∃ t, exec (.encint none) s = .next t ∧ t.outLen.toNat = ldefInt s.intIn.toNat

/-- 41_encoder.md R121, 42_decoder.md R152: the default lengths of ENCBUF and DECBUF: the least number of characters
that hold `8n` bits, and of bytes that hold `6n` bits, their closed forms and their values by the remainder; with LEN
omitted the command writes that many cells. -/
def Obligations.DefaultLengthsAreTheLeastSufficient : Prop :=
  (∀ n : Nat,
    (ldefBuf n = (8 * n + 5) / 6 ∧ 8 * n ≤ 6 * ldefBuf n ∧ ∀ m, 8 * n ≤ 6 * m → ldefBuf n ≤ m) ∧
    (ldefDec n = (6 * n + 7) / 8 ∧ 6 * n ≤ 8 * ldefDec n ∧ ∀ m, 6 * n ≤ 8 * m → ldefDec n ≤ m) ∧
    (ldefBuf (3 * n) = 4 * n ∧ ldefBuf (3 * n + 1) = 4 * n + 2 ∧ ldefBuf (3 * n + 2) = 4 * n + 3) ∧
    (ldefDec (4 * n) = 3 * n ∧ ldefDec (4 * n + 1) = 3 * n + 1 ∧ ldefDec (4 * n + 2) = 3 * n + 2 ∧
      ldefDec (4 * n + 3) = 3 * n + 3)) ∧
  ∀ (s : State) (cs : List Cell), s.srcHolds cs → cs.length ≤ Config.nbuf →
    (ldefBuf cs.length ≤ Config.nbuf →
      ∃ t, exec (.encbuf none) s = .next t ∧ t.outLen.toNat = ldefBuf cs.length) ∧
    ((∀ c ∈ cs, (s.rlut.entry c).valid = true) →
      ∃ t, exec (.decbuf none) s = .next t ∧ t.outLen.toNat = ldefDec cs.length)

/-- 41_encoder.md R123: a length shorter than the default writes the digits of `V mod 64**L` and raises no error;
they are the last characters of the output with LEN omitted, where that fits DST. -/
def Obligations.EncbufTruncationKeepsTheLowDigits : Prop :=
  ∀ (s : State) (cs : List Cell) (n : Nat), s.srcHolds cs → cs.length ≤ Config.nbuf → 1 ≤ n → n ≤ Config.nbuf →
    n < ldefBuf cs.length →
    ∃ u, exec (.encbuf (some n)) s = .next u ∧ Succeeded s u ∧
      u.dstHolds ((digitsOf (bufferValue cs % 64 ^ n) n).map s.lut.char) ∧
      (ldefBuf cs.length ≤ Config.nbuf → ∃ t out, exec (.encbuf none) s = .next t ∧ t.dstHolds out ∧
        u.dstHolds (out.drop (ldefBuf cs.length - n)))

/-- 41_encoder.md R124 (marked derived in the spec): every output position beyond the buffer's bits holds `LUT[0]`. -/
def Obligations.EncbufPadsWithTheZeroCharacter : Prop :=
  ∀ (s : State) (cs : List Cell) (n : Nat), s.srcHolds cs → cs.length ≤ Config.nbuf → 1 ≤ n → n ≤ Config.nbuf →
    ∃ t, exec (.encbuf (some n)) s = .next t ∧
      (∀ k, k < n → 8 * cs.length ≤ 6 * (n - 1 - k) → t.dst.read k = some (s.lut.char 0)) ∧
      (∀ k, k < n - ldefBuf cs.length → t.dst.read k = some (s.lut.char 0))

/-- 41_encoder.md R127 (marked derived in the spec): the four-phase digit datapath of ENCBUF computes the digits of
the closed form, for every buffer and every output length. -/
def Obligations.GrouperComputesTheDigits : Prop :=
  ∀ (buf : List Byte) (len : Nat), grouperDigits buf len = digitsOf (bufferValue buf) len

/-- 41_encoder.md R133 (its closed form marked derived in the spec): the digit extractor of ENCINT computes the
digits of the closed form where the integer fits. -/
def Obligations.ExtractorComputesTheDigits : Prop :=
  ∀ (num : IntWord) (len : Nat), num.toNat < 64 ^ len → extractorDigits num len = digitsOf num.toNat len

/-- 41_encoder.md R129 (marked derived in the spec): with a strictly increasing alphabet, two buffers of values `V1 <
V2 < 64**L` encoded to one length `L` give outputs in the same lexicographic order. -/
def Obligations.EncbufPreservesOrder : Prop :=
  ∀ (s1 s2 : State) (b1 b2 : List Cell) (l1 l2 : Option Nat) (len : Nat),
    s1.srcHolds b1 → s2.srcHolds b2 → s1.lut = s2.lut → s1.lut.increasing →
    b1.length ≤ Config.nbuf → b2.length ≤ Config.nbuf → len ≤ Config.nbuf →
    outputLength l1 (ldefBuf b1.length) = len → outputLength l2 (ldefBuf b2.length) = len →
    bufferValue b1 < bufferValue b2 → bufferValue b2 < 64 ^ len →
    ∃ t1 t2 out1 out2, exec (.encbuf l1) s1 = .next t1 ∧ exec (.encbuf l2) s2 = .next t2 ∧
      t1.dstHolds out1 ∧ t2.dstHolds out2 ∧ out1.map BitVec.toNat < out2.map BitVec.toNat

/-- 41_encoder.md R136 (marked derived in the spec): for two integers `a < b` encoded to one length, the outputs are
in the same order. -/
def Obligations.EncintPreservesOrder : Prop :=
  ∀ (s1 s2 : State) (l1 l2 : Option Nat) (len : Nat),
    s1.lut = s2.lut → s1.lut.increasing → len ≤ Config.nbuf →
    outputLength l1 (ldefInt s1.intIn.toNat) = len → outputLength l2 (ldefInt s2.intIn.toNat) = len →
    s1.intIn < s2.intIn → s2.intIn.toNat < 64 ^ len →
    ∃ t1 t2 out1 out2, exec (.encint l1) s1 = .next t1 ∧ exec (.encint l2) s2 = .next t2 ∧
      t1.dstHolds out1 ∧ t2.dstHolds out2 ∧ out1.map BitVec.toNat < out2.map BitVec.toNat

/-- 41_encoder.md R135 (marked derived in the spec): ENCBUF of a buffer and ENCINT of its value, with one length that
the value fits, write the same cells. -/
def Obligations.EncbufAndEncintAgree : Prop :=
  ∀ (s : State) (cs : List Cell) (n : Nat), s.srcHolds cs → cs.length ≤ Config.nbuf → 1 ≤ n → n ≤ Config.nbuf →
    s.intIn.toNat = bufferValue cs → bufferValue cs < 64 ^ n →
    ∃ t u out, exec (.encbuf (some n)) s = .next t ∧ exec (.encint (some n)) s = .next u ∧
      t.dstHolds out ∧ u.dstHolds out

/-! ## Decoding -/

/-- 42_decoder.md R153: DECBUF writes the low `m` bytes of the string's base-64 value, most significant first;
OUT_LEN is `m`; every other cell and register is unchanged. It fails with E_CAPACITY, SUB 1 on a longer input than
NBUF, then with E_DECODE at the lowest invalid index, then with E_CAPACITY, SUB 2 on a longer output. -/
def Obligations.DecbufWritesTheLowBytesOrReportsTheFirstFailure : Prop :=
  (∀ n : Nat, n < 2 ^ 24 → decode (wordOfFields 5 0 n) = .ok (.decbuf (if n = 0 then none else some n))) ∧
  ∀ (s : State) (bytes : Option Nat), bytes ≠ some 0 →
    (∀ (cs : List Cell) (ds : List Digit), s.srcHolds cs → cs.length ≤ Config.nbuf →
      cs.map s.rlut.entry = ds.map (fun d => ⟨true, d⟩) → outputLength bytes ((6 * cs.length + 7) / 8) ≤ Config.nbuf →
      ∃ t, exec (.decbuf bytes) s = .next t ∧
        t.outLen.toNat = outputLength bytes ((6 * cs.length + 7) / 8) ∧
        (∀ j, j < t.outLen.toNat → t.dst.read j =
          some (BitVec.ofNat 8 (stringValue ds / 256 ^ (t.outLen.toNat - 1 - j)))) ∧
        (∀ j, t.outLen.toNat ≤ j → t.dst.read j = s.dst.read j) ∧ Succeeded s t ∧
        t = { s with dst := t.dst, outLen := t.outLen, status := t.status, errInfo := t.errInfo }) ∧
    (Config.nbuf < s.srcLen.toNat → ∃ t, exec (.decbuf bytes) s = .next t ∧ FailedWith 5 1 0 s t) ∧
    (∀ (cs : List Cell) (k : Nat) (c : Cell), s.srcHolds cs → cs.length ≤ Config.nbuf →
      (∀ x ∈ cs.take k, (s.rlut.entry x).valid = true) → cs[k]? = some c → (s.rlut.entry c).valid = false →
      ∃ t, exec (.decbuf bytes) s = .next t ∧ FailedWith 3 0 k s t) ∧
    (∀ cs : List Cell, s.srcHolds cs → cs.length ≤ Config.nbuf → (∀ c ∈ cs, (s.rlut.entry c).valid = true) →
      Config.nbuf < outputLength bytes ((6 * cs.length + 7) / 8) →
      ∃ t, exec (.decbuf bytes) s = .next t ∧ FailedWith 5 2 0 s t)

/-- 42_decoder.md R151: DECBUF and DECINT fail with E_DECODE at the lowest index whose character is not in the
alphabet, whatever the characters after it, the output length and the value. -/
def Obligations.DecodersReportTheLowestInvalidCharacter : Prop :=
  ∀ (s : State) (cs : List Cell) (k : Nat) (c : Cell), s.srcHolds cs → cs.length ≤ Config.nbuf →
    (∀ x ∈ cs.take k, (s.rlut.entry x).valid = true) → cs[k]? = some c → (s.rlut.entry c).valid = false →
    (∀ bytes : Option Nat, bytes ≠ some 0 → ∃ t, exec (.decbuf bytes) s = .next t ∧ FailedWith 3 0 k s t) ∧
    ∃ t, exec .decint s = .next t ∧ FailedWith 3 0 k s t

/-- 42_decoder.md R162, R161: DECINT puts the string's base-64 value, where it is below `2**53`, in INT_OUT and
changes nothing else. It fails with E_CAPACITY on a longer input than NBUF, then with E_DECODE at the lowest invalid
index, then with E_OVERFLOW at the first index where the value of the characters read so far reaches `2**53`. -/
def Obligations.DecintGivesTheValueOrReportsTheFirstFailure : Prop :=
  decode 0x00000006 = .ok .decint ∧
  ∀ s : State,
    (∀ (cs : List Cell) (ds : List Digit), s.srcHolds cs → cs.length ≤ Config.nbuf →
      cs.map s.rlut.entry = ds.map (fun d => ⟨true, d⟩) → stringValue ds < 2 ^ 53 →
      ∃ t, exec .decint s = .next t ∧ t.intOut.toNat = stringValue ds ∧ Succeeded s t ∧
        t = { s with intOut := t.intOut, status := t.status, errInfo := t.errInfo }) ∧
    (Config.nbuf < s.srcLen.toNat → ∃ t, exec .decint s = .next t ∧ FailedWith 5 1 0 s t) ∧
    (∀ (cs : List Cell) (k : Nat) (c : Cell), s.srcHolds cs → cs.length ≤ Config.nbuf →
      (∀ x ∈ cs.take k, (s.rlut.entry x).valid = true) → cs[k]? = some c → (s.rlut.entry c).valid = false →
      ∃ t, exec .decint s = .next t ∧ FailedWith 3 0 k s t) ∧
    (∀ (cs : List Cell) (ds : List Digit) (k : Nat), s.srcHolds cs → cs.length ≤ Config.nbuf →
      cs.map s.rlut.entry = ds.map (fun d => ⟨true, d⟩) → k < ds.length →
      stringValue (ds.take k) < 2 ^ 53 → 2 ^ 53 ≤ stringValue (ds.take (k + 1)) →
      ∃ t, exec .decint s = .next t ∧ FailedWith 4 0 k s t)

/-- 42_decoder.md R154 (marked derived in the spec): every output byte beyond the string's bits is 0. -/
def Obligations.DecbufZeroFills : Prop :=
  ∀ (s : State) (cs : List Cell) (n : Nat), s.srcHolds cs → cs.length ≤ Config.nbuf → 1 ≤ n → n ≤ Config.nbuf →
    (∀ c ∈ cs, (s.rlut.entry c).valid = true) →
    ∃ t, exec (.decbuf (some n)) s = .next t ∧
      ∀ j, j < n → 6 * cs.length ≤ 8 * (n - 1 - j) → t.dst.read j = some 0

/-- 42_decoder.md R155: a shorter output than the string's bits holds the `m` bytes of `V mod 256**m`, and no error
is raised. -/
def Obligations.DecbufTruncationKeepsTheLowBytes : Prop :=
  ∀ (s : State) (cs : List Cell) (n : Nat), s.srcHolds cs → cs.length ≤ Config.nbuf → 1 ≤ n → 8 * n < 6 * cs.length →
    (∀ c ∈ cs, (s.rlut.entry c).valid = true) →
    ∃ t out, exec (.decbuf (some n)) s = .next t ∧ Succeeded s t ∧ t.dstHolds out ∧ out.length = n ∧
      bufferValue out = stringValue (s.rlut.digits cs) % 256 ^ n

/-- 42_decoder.md R157 (marked derived in the spec): the four-phase byte datapath of DECBUF computes the bytes of the
closed form, for every string and every output length. -/
def Obligations.UnpackerComputesTheBytes : Prop :=
  ∀ (ds : List Digit) (m : Nat), unpackerBytes ds m = bytesOf (stringValue ds) m

/-- 42_decoder.md R158 (marked derived in the spec): a buffer encoded to a length that holds it, copied to SRC and
decoded to its own length is the buffer again; the empty buffer decodes with LEN omitted. A given length of 0, which
no word encodes, is covered as log 12 has it. -/
def Obligations.BuffersRoundTrip : Prop :=
  ∀ (s : State) (b : List Cell) (len : Option Nat), CodecInv s → s.srcHolds b → b.length ≤ Config.nbuf →
    ldefBuf b.length ≤ outputLength len (ldefBuf b.length) → outputLength len (ldefBuf b.length) ≤ Config.nbuf →
    ∃ t out, exec (.encbuf len) s = .next t ∧ t.dstHolds out ∧
      ∀ u : State, u.rlut = t.rlut → u.srcHolds out →
        (1 ≤ b.length → ∃ v, exec (.decbuf (some b.length)) u = .next v ∧ Succeeded u v ∧ v.dstHolds b) ∧
        (b = [] → len = none → ∃ v, exec (.decbuf none) u = .next v ∧ Succeeded u v ∧ v.dstHolds b)

/-- 42_decoder.md R159 (marked derived in the spec): encoding and decoding with both lengths omitted gives the buffer
back when its length is a multiple of 3, and with one zero byte before it otherwise. -/
def Obligations.DefaultLengthsRoundTripUpToAZeroByte : Prop :=
  ∀ (s : State) (b : List Cell), CodecInv s → s.srcHolds b → ldefBuf b.length ≤ Config.nbuf →
    ∃ t out, exec (.encbuf none) s = .next t ∧ t.dstHolds out ∧
      ∀ u : State, u.rlut = t.rlut → u.srcHolds out →
        ∃ v, exec (.decbuf none) u = .next v ∧ Succeeded u v ∧
          v.dstHolds (if b.length % 3 = 0 then b else 0 :: b)

/-- 42_decoder.md R163 (marked derived in the spec): an integer encoded with its length omitted, or given and
sufficient, copied to SRC and decoded is the integer again, and never overflows. A given length of 0, which no word
encodes, is covered as log 12 has it. -/
def Obligations.IntegersRoundTrip : Prop :=
  ∀ (s : State) (len : Option Nat), CodecInv s → outputLength len (ldefInt s.intIn.toNat) ≤ Config.nbuf →
    (∀ n, len = some n → s.intIn.toNat < 64 ^ n) →
    ∃ t out, exec (.encint len) s = .next t ∧ t.dstHolds out ∧
      ∀ u : State, u.rlut = t.rlut → u.srcHolds out →
        ∃ v, exec .decint u = .next v ∧ Succeeded u v ∧ v.intOut = s.intIn

/-! ## Every command -/

/-- 70_reset_and_hazards.md R203: every command completes, with success or with a status code, whenever its operands
have been written. -/
def Obligations.EveryCommandCompletesOnWrittenOperands : Prop :=
  ∀ (i : Instr) (s : State), OperandsReady i s → ∃ t, exec i s = .next t

/-- 93_implementation_defined.md S2, 70_reset_and_hazards.md R203: a command that comes to read a cell nothing has
written faults: the cells before it are written and raise no error of the command. -/
def Obligations.UnwrittenOperandCellsFault : Prop :=
  ∀ (s : State) (cs : List Cell), s.srcLen.toNat ≤ Config.nbuf → cs.length < s.srcLen.toNat →
    (∀ k, k < cs.length → s.src.read k = cs[k]?) → s.src.read cs.length = none →
    (s.srcLen.toNat = 64 → cs.Nodup → exec .ldalpha s = .fault (.unwrittenSrc cs.length)) ∧
    (∀ len, exec (.encbuf len) s = .fault (.unwrittenSrc cs.length)) ∧
    ((∀ c ∈ cs, (s.rlut.entry c).valid = true) →
      (∀ bytes, exec (.decbuf bytes) s = .fault (.unwrittenSrc cs.length)) ∧
      exec .decint s = .fault (.unwrittenSrc cs.length))

/-- 60_exceptions.md R186: an issued word, be it a command or illegal, that ends with a code other than 0 changes
nothing but STATUS and ERR_INFO, sets STICKY and leaves the reserved bits; so does a command run by itself. -/
def Obligations.FailuresArePrecise : Prop :=
  (∀ (s t : State) (w : Word) (rest : List HostAction), s.host = .issue w :: rest → step s = .next t →
    statusCode t.status ≠ 0 →
    FailedWith (statusCode t.status) (errSub t.errInfo).toNat (errPos t.errInfo).toNat { s with host := rest } t) ∧
  (∀ (i : Instr) (s t : State), exec i s = .next t → statusCode t.status ≠ 0 →
    FailedWith (statusCode t.status) (errSub t.errInfo).toNat (errPos t.errInfo).toNat s t)

/-- 60_exceptions.md R187: an issued word that ends with code 0 is a command, writes ERR_INFO 0 and leaves STICKY and
the reserved bits as they were; so does a command run by itself. -/
def Obligations.SuccessClearsTheErrorInformation : Prop :=
  (∀ (s t : State) (w : Word) (rest : List HostAction), s.host = .issue w :: rest → step s = .next t →
    statusCode t.status = 0 → (∃ i, decode w = .ok i) ∧ Succeeded s t) ∧
  (∀ (i : Instr) (s t : State), exec i s = .next t → statusCode t.status = 0 → Succeeded s t)

/-- 30_encoding.md R72, 20_memory.md R51, 10_state.md R26, R27: what each command may write; every other piece of
state, every DST cell at OUT_LEN or above, and all of SRC, SRC_LEN and INT_IN are unchanged. -/
def Obligations.CommandsWriteOnlyTheirResults : Prop :=
  ∀ (s t : State),
    (exec .ldalpha s = .next t ∨ exec .lddef s = .next t →
      t = { s with lut := t.lut, rlut := t.rlut, status := t.status, errInfo := t.errInfo }) ∧
    (∀ len, exec (.encbuf len) s = .next t ∨ exec (.encint len) s = .next t ∨ exec (.decbuf len) s = .next t →
      t = { s with dst := t.dst, outLen := t.outLen, status := t.status, errInfo := t.errInfo } ∧
      ∀ k, t.outLen.toNat ≤ k → t.dst.read k = s.dst.read k) ∧
    (exec .decint s = .next t → t = { s with intOut := t.intOut, status := t.status, errInfo := t.errInfo })

/-- 60_exceptions.md R180, 20_memory.md R54: which commands end with which code; E_BYTE cannot occur with cells of 8
bits, and E_ILLEGAL comes from no command. -/
def Obligations.EachCodeComesFromItsCommands : Prop :=
  ∀ (i : Instr) (s t : State), exec i s = .next t →
    statusCode t.status = 0 ∨
    (statusCode t.status = 1 ∧ i = .ldalpha) ∨
    (statusCode t.status = 2 ∧ ∃ n, i = .encint (some n)) ∨
    (statusCode t.status = 3 ∧ (i = .decint ∨ ∃ bytes, i = .decbuf bytes)) ∨
    (statusCode t.status = 4 ∧ i = .decint) ∨
    (statusCode t.status = 5 ∧ i ≠ .lddef)

/-- 60_exceptions.md R185: the SUB and POS a command, or an illegal word, leaves with each code; ERR_INFO's reserved
bits are 0. That POS is at most NBUF is R185's last sentence, marked derived in the spec (from 00_scope.md R10); that
code 7, E_BYTE, cannot occur rests on cells of 8 bits (20_memory.md R54, log 2). -/
def Obligations.ErrorInformationIsAsTabled : Prop :=
  (∀ (w : Word) (e : IllegalWord) (s : State), decode w = .error e →
    ∃ t, issueWord w s = .next t ∧ statusCode t.status = 6 ∧ t.errInfo = 0) ∧
  ∀ (i : Instr) (s t : State), exec i s = .next t →
    errReserved t.errInfo = 0 ∧ (errPos t.errInfo).toNat ≤ Config.nbuf ∧ statusCode t.status ≠ 7 ∧
    (statusCode t.status = 0 → (errSub t.errInfo).toNat = 0 ∧ (errPos t.errInfo).toNat = 0) ∧
    (statusCode t.status = 1 →
      ((errSub t.errInfo).toNat = 1 ∧ s.srcLen.toNat ≠ 64 ∧ (errPos t.errInfo).toNat = s.srcLen.toNat) ∨
      ((errSub t.errInfo).toNat = 2 ∧ s.srcLen.toNat = 64 ∧ (errPos t.errInfo).toNat < 64 ∧
        (∃ k c, k < (errPos t.errInfo).toNat ∧ s.src.read k = some c ∧
          s.src.read (errPos t.errInfo).toNat = some c) ∧
        ∀ j, j < (errPos t.errInfo).toNat → ∃ c, s.src.read j = some c ∧ ∀ k, k < j → s.src.read k ≠ some c)) ∧
    (statusCode t.status = 2 → (errSub t.errInfo).toNat = 0 ∧ (errPos t.errInfo).toNat = 0) ∧
    (statusCode t.status = 3 →
      (errSub t.errInfo).toNat = 0 ∧
      (∃ c, s.src.read (errPos t.errInfo).toNat = some c ∧ (s.rlut.entry c).valid = false) ∧
      ∀ j, j < (errPos t.errInfo).toNat → ∃ c, s.src.read j = some c ∧ (s.rlut.entry c).valid = true) ∧
    (statusCode t.status = 4 →
      (errSub t.errInfo).toNat = 0 ∧ ∃ cs, s.srcHolds cs ∧ (errPos t.errInfo).toNat < cs.length ∧
        2 ^ 53 ≤ stringValue (s.rlut.digits (cs.take ((errPos t.errInfo).toNat + 1))) ∧
        stringValue (s.rlut.digits (cs.take (errPos t.errInfo).toNat)) < 2 ^ 53) ∧
    (statusCode t.status = 5 →
      (((errSub t.errInfo).toNat = 1 ∧ readsSrc i = true ∧ Config.nbuf < s.srcLen.toNat) ∨
        ((errSub t.errInfo).toNat = 2 ∧ Config.nbuf < resultLength i s)) ∧ (errPos t.errInfo).toNat = 0)

/-- 30_encoding.md R72: a command's result depends on its tabled operands only: two states that agree on them, and
that may differ in everything else, end it with the same code, ERR_INFO and result. -/
def Obligations.CommandsReadOnlyTheirOperands : Prop :=
  ∀ (s s' t : State),
    (s.srcLen = s'.srcLen → (∀ k, k < s.srcLen.toNat → s.src.read k = s'.src.read k) →
      (exec .ldalpha s = .next t → ∃ t', exec .ldalpha s' = .next t' ∧
        statusCode t'.status = statusCode t.status ∧ t'.errInfo = t.errInfo ∧
        (statusCode t.status = 0 → t'.lut = t.lut ∧ t'.rlut = t.rlut)) ∧
      (∀ len, s.lut = s'.lut → exec (.encbuf len) s = .next t → ∃ t', exec (.encbuf len) s' = .next t' ∧
        statusCode t'.status = statusCode t.status ∧ t'.errInfo = t.errInfo ∧
        (statusCode t.status = 0 → t'.outLen = t.outLen ∧
          ∀ k, k < t.outLen.toNat → t'.dst.read k = t.dst.read k)) ∧
      (∀ bytes, s.rlut = s'.rlut → exec (.decbuf bytes) s = .next t → ∃ t', exec (.decbuf bytes) s' = .next t' ∧
        statusCode t'.status = statusCode t.status ∧ t'.errInfo = t.errInfo ∧
        (statusCode t.status = 0 → t'.outLen = t.outLen ∧
          ∀ k, k < t.outLen.toNat → t'.dst.read k = t.dst.read k)) ∧
      (s.rlut = s'.rlut → exec .decint s = .next t → ∃ t', exec .decint s' = .next t' ∧
        statusCode t'.status = statusCode t.status ∧ t'.errInfo = t.errInfo ∧
        (statusCode t.status = 0 → t'.intOut = t.intOut))) ∧
    (∀ len, s.intIn = s'.intIn → s.lut = s'.lut → exec (.encint len) s = .next t →
      ∃ t', exec (.encint len) s' = .next t' ∧
        statusCode t'.status = statusCode t.status ∧ t'.errInfo = t.errInfo ∧
        (statusCode t.status = 0 → t'.outLen = t.outLen ∧
          ∀ k, k < t.outLen.toNat → t'.dst.read k = t.dst.read k)) ∧
    (exec .lddef s = .next t → ∃ t', exec .lddef s' = .next t' ∧
      statusCode t'.status = statusCode t.status ∧ t'.errInfo = t.errInfo ∧ t'.lut = t.lut ∧ t'.rlut = t.rlut)

/-! ## Invariants -/

/-- The invariant of the machine holds right after reset. -/
def Obligations.ResetMeetsTheInvariant : Prop := Inv State.reset

/-- Every step keeps the invariant of the machine: the codec is a bijection with its reverse table, STATUS and
ERR_INFO are legal and agree, the memories are in canonical form within 0..NBUF-1, and the result delimited by
OUT_LEN is written. -/
def Obligations.EveryStepKeepsTheInvariant : Prop :=
  ∀ s t : State, Inv s → step s = .next t → Inv t

/-- 10_state.md R22 (marked derived in the spec): every step keeps the codec a bijection with its reverse table, from
every state in which it is one, whatever the rest of the state holds. -/
def Obligations.EveryStepKeepsTheCodecBijective : Prop :=
  ∀ s t : State, CodecInv s → step s = .next t → CodecInv t

/-- 10_state.md R22 (marked derived in the spec): in every state reachable from reset, under any host actions, LUT
has no repeats and RLUT is its reverse. -/
def Obligations.ReachableCodecsAreBijective : Prop :=
  ∀ s : State, Reachable s →
    (∀ d e : Digit, d ≠ e → s.lut.char d ≠ s.lut.char e) ∧
    (∀ c : Cell, (s.rlut.entry c).valid = true ↔ ∃ d, s.lut.char d = c) ∧
    (∀ d : Digit, (s.rlut.entry (s.lut.char d)).idx = d) ∧
    (∀ c : Cell, (s.rlut.entry c).valid = false → (s.rlut.entry c).idx = 0)

/-- 10_state.md R28: a step that is no reset leaves STICKY set once it is set, sets it exactly by a failing command,
and never changes a reserved bit of STATUS. -/
def Obligations.OnlyResetClearsSticky : Prop :=
  ∀ s t : State, step s = .next t → (∀ rest, s.host ≠ .reset :: rest) →
    statusReserved t.status = statusReserved s.status ∧
    (statusSticky s.status = 1 → statusSticky t.status = 1) ∧
    (statusSticky s.status = 0 → statusSticky t.status = 1 →
      (∃ w rest, s.host = .issue w :: rest) ∧ statusCode t.status ≠ 0) ∧
    (∀ w rest, s.host = .issue w :: rest → statusCode t.status ≠ 0 → statusSticky t.status = 1)
end

