-- ==== Sys2Proof/Laws/Codec.lean ====
section
/-! SUPPORT. The derived reverse table is the reverse of its alphabet (spec/10_state.md R22, R23). -/

namespace Sys2Proof.Machine

theorem ReverseMap.entry_put (rlut : ReverseMap) (c c' : Cell) (e : RlutEntry) :
    (rlut.put c e).entry c' = if c = c' then e else rlut.entry c' := by
  unfold ReverseMap.entry ReverseMap.put
  rw [Vector.getElem_set]
  simp [BitVec.toNat_inj]

@[simp] theorem ReverseMap.entry_cleared (c : Cell) : ReverseMap.cleared.entry c = ⟨false, 0⟩ := by
  unfold ReverseMap.entry ReverseMap.cleared
  rw [Vector.getElem_replicate]

theorem entry_deriveFrom_absent (i : Nat) (cs : List Cell) (rlut : ReverseMap) (c : Cell) (h : c ∉ cs) :
    (deriveFrom i cs rlut).entry c = rlut.entry c := by
  induction cs generalizing i rlut with
  | nil => rfl
  | cons x xs ih =>
    simp only [List.mem_cons, not_or] at h
    rw [deriveFrom, ih _ _ h.2, ReverseMap.entry_put, if_neg (Ne.symm h.1)]

theorem entry_deriveFrom_present (i j : Nat) (cs : List Cell) (rlut : ReverseMap) (hd : cs.Nodup)
    (h : j < cs.length) : (deriveFrom i cs rlut).entry cs[j] = ⟨true, BitVec.ofNat 6 (i + j)⟩ := by
  induction cs generalizing i j rlut with
  | nil => simp at h
  | cons x xs ih =>
    obtain ⟨hx, hxs⟩ := List.nodup_cons.mp hd
    rw [deriveFrom]
    cases j with
    | zero =>
      rw [List.getElem_cons_zero, entry_deriveFrom_absent _ _ _ _ hx, ReverseMap.entry_put, if_pos rfl, Nat.add_zero]
    | succ j =>
      rw [List.getElem_cons_succ, ih (i + 1) j _ hxs (by simpa using h)]
      simp [Nat.add_assoc, Nat.add_comm 1]

theorem Alphabet.char_eq_getElem (lut : Alphabet) (d : Digit) :
    lut.char d = lut.toList[d.toNat]'(by simpa using d.isLt) := by
  simp [Alphabet.char]

theorem Alphabet.mem_toList (lut : Alphabet) (c : Cell) : c ∈ lut.toList ↔ ∃ d, lut.char d = c := by
  rw [List.mem_iff_getElem]
  constructor
  · rintro ⟨i, hi, rfl⟩
    have hi' : i < 64 := by simpa using hi
    refine ⟨BitVec.ofNat 6 i, ?_⟩
    simp [Alphabet.char, Nat.mod_eq_of_lt hi']
  · rintro ⟨d, rfl⟩
    exact ⟨d.toNat, by simpa using d.isLt, by simp [Alphabet.char]⟩

/-- Distinct characters, said of the digits and of the list. -/
theorem Alphabet.nodup_iff (lut : Alphabet) :
    lut.toList.Nodup ↔ ∀ d e, lut.char d = lut.char e → d = e := by
  rw [List.nodup_iff_injective_getElem]
  constructor
  · intro h d e hde
    have := @h ⟨d.toNat, by simpa using d.isLt⟩ ⟨e.toNat, by simpa using e.isLt⟩
      (by simpa [Alphabet.char] using hde)
    exact BitVec.eq_of_toNat_eq (by simpa using congrArg Fin.val this)
  · intro h i j hij
    have hi : i.val < 64 := by simpa using i.isLt
    have hj : j.val < 64 := by simpa using j.isLt
    have := h (BitVec.ofNat 6 i.val) (BitVec.ofNat 6 j.val)
      (by simpa [Alphabet.char, Nat.mod_eq_of_lt hi, Nat.mod_eq_of_lt hj] using hij)
    have := congrArg BitVec.toNat this
    simp [Nat.mod_eq_of_lt hi, Nat.mod_eq_of_lt hj] at this
    exact Fin.ext this

/-- The derived entry of a character of an alphabet without repeats. -/
theorem entry_deriveRlut_char {lut : Alphabet} (h : ∀ d e, lut.char d = lut.char e → d = e) (d : Digit) :
    (deriveRlut lut).entry (lut.char d) = ⟨true, d⟩ := by
  have hd : d.toNat < lut.toList.length := by simpa using d.isLt
  have := entry_deriveFrom_present 0 d.toNat lut.toList ReverseMap.cleared ((Alphabet.nodup_iff lut).mpr h) hd
  rw [← Alphabet.char_eq_getElem] at this
  simpa [deriveRlut] using this

/-- The derived entry of a code outside the alphabet. -/
theorem entry_deriveRlut_absent (lut : Alphabet) (c : Cell) (h : ∀ d, lut.char d ≠ c) :
    (deriveRlut lut).entry c = ⟨false, 0⟩ := by
  have hc : c ∉ lut.toList := fun hc => by
    obtain ⟨d, hd⟩ := (Alphabet.mem_toList lut c).mp hc
    exact h d hd
  rw [deriveRlut, entry_deriveFrom_absent _ _ _ _ hc, ReverseMap.entry_cleared]

/-- `DeriveRLUT()` of an alphabet without repeats is its reverse. -/
theorem reverseOf_deriveRlut {lut : Alphabet} (h : ∀ d e, lut.char d = lut.char e → d = e) :
    ReverseOf lut (deriveRlut lut) where
  valid c := by
    constructor
    · intro hv
      by_contra hn
      rw [entry_deriveRlut_absent lut c fun d hd => hn ⟨d, hd⟩] at hv
      exact Bool.noConfusion hv
    · rintro ⟨d, rfl⟩
      rw [entry_deriveRlut_char h]
  index d := by rw [entry_deriveRlut_char h]
  absent c hv := by
    by_cases hc : ∃ d, lut.char d = c
    · obtain ⟨d, rfl⟩ := hc
      rw [entry_deriveRlut_char h] at hv
      exact Bool.noConfusion hv
    · rw [entry_deriveRlut_absent lut c fun d hd => hc ⟨d, hd⟩]

theorem Alphabet.char_ofCells (cs : List Cell) (d : Digit) :
    (Alphabet.ofCells cs).char d = cs.getD d.toNat 0 := by
  simp [Alphabet.char, Alphabet.ofCells]

theorem Alphabet.ofCells_distinct {cs : List Cell} (hl : cs.length = 64) (hd : cs.Nodup) (d e : Digit)
    (h : (Alphabet.ofCells cs).char d = (Alphabet.ofCells cs).char e) : d = e := by
  have hd' : d.toNat < cs.length := hl ▸ d.isLt
  have he' : e.toNat < cs.length := hl ▸ e.isLt
  rw [Alphabet.char_ofCells, Alphabet.char_ofCells, List.getD_eq_getElem _ _ hd', List.getD_eq_getElem _ _ he'] at h
  exact BitVec.eq_of_toNat_eq ((List.Nodup.getElem_inj_iff hd).mp h)

set_option maxRecDepth 4000 in
theorem defaultAlphabet_increasing : defaultAlphabet.increasing := by
  unfold Alphabet.increasing
  decide +kernel

theorem Alphabet.increasing.distinct {lut : Alphabet} (h : lut.increasing) (d e : Digit)
    (hde : lut.char d = lut.char e) : d = e := by
  rcases Nat.lt_trichotomy d.toNat e.toNat with hlt | heq | hgt
  · exact absurd hde (BitVec.ne_of_lt (h d e hlt))
  · exact BitVec.eq_of_toNat_eq heq
  · exact absurd hde.symm (BitVec.ne_of_lt (h e d hgt))

end Sys2Proof.Machine
end

