-- ==== Sys2Proof/Laws/Operands.lean ====
section
/-! SUPPORT. Positional values, digits and bytes, and the default lengths. -/

namespace Sys2Proof.Machine

@[simp] theorem beval_nil (b : Nat) : beval b [] = 0 := rfl

theorem beval_cons (b d : Nat) (ds : List Nat) : beval b (d :: ds) = d * b ^ ds.length + beval b ds := rfl

theorem beval_append (b : Nat) (xs ys : List Nat) :
    beval b (xs ++ ys) = beval b xs * b ^ ys.length + beval b ys := by
  induction xs with
  | nil => simp
  | cons x xs ih =>
    simp only [List.cons_append, beval_cons, List.length_append, ih, Nat.pow_add]
    ring

theorem beval_lt {b : Nat} {ds : List Nat} (h : ∀ d ∈ ds, d < b) : beval b ds < b ^ ds.length := by
  induction ds with
  | nil => simp
  | cons d ds ih =>
    have hd : d + 1 ≤ b := h d List.mem_cons_self
    have ih := ih fun x hx => h x (List.mem_cons_of_mem _ hx)
    rw [beval_cons, List.length_cons, Nat.pow_succ]
    calc d * b ^ ds.length + beval b ds < d * b ^ ds.length + b ^ ds.length := by omega
      _ = (d + 1) * b ^ ds.length := by ring
      _ ≤ b * b ^ ds.length := Nat.mul_le_mul_right _ hd
      _ = b ^ ds.length * b := Nat.mul_comm _ _

/-- Place `k` of a positional value. -/
theorem beval_place {b : Nat} {ds : List Nat} (h : ∀ d ∈ ds, d < b) (k : Nat) (hk : k < ds.length) :
    beval b ds / b ^ (ds.length - 1 - k) % b = ds[k] := by
  have hb : 0 < b := Nat.lt_of_le_of_lt (Nat.zero_le _) (h _ (List.getElem_mem hk))
  have split : ds = ds.take k ++ ds[k] :: ds.drop (k + 1) := by
    rw [← List.drop_eq_getElem_cons hk, List.take_append_drop]
  have low : beval b (ds.drop (k + 1)) < b ^ (ds.length - 1 - k) := by
    have := beval_lt (b := b) (ds := ds.drop (k + 1)) fun x hx => h x (List.mem_of_mem_drop hx)
    rwa [List.length_drop, show ds.length - (k + 1) = ds.length - 1 - k by omega] at this
  have value : beval b ds = (beval b (ds.take k) * b + ds[k]) * b ^ (ds.length - 1 - k) + beval b (ds.drop (k + 1)) := by
    conv_lhs => rw [split]
    rw [beval_append, beval_cons, List.length_cons, List.length_drop,
      show ds.length - (k + 1) = ds.length - 1 - k by omega, Nat.pow_succ]
    ring
  rw [value, Nat.mul_comm, Nat.mul_add_div (Nat.pow_pos hb), Nat.div_eq_of_lt low, Nat.add_zero,
    Nat.mul_comm, Nat.mul_add_mod]
  exact Nat.mod_eq_of_lt (h _ (List.getElem_mem hk))

/-- The value is the sum of 00_scope.md R14. -/
theorem beval_map_eq_sum {α : Type} (b : Nat) (f : α → Nat) (xs : List α) :
    beval b (xs.map f) = ∑ k : Fin xs.length, f xs[k] * b ^ (xs.length - 1 - k.val) := by
  induction xs with
  | nil => simp
  | cons x xs ih =>
    rw [List.map_cons, beval_cons, ih, List.length_map]
    simp only [List.length_cons, Fin.sum_univ_succ]
    simp only [Fin.getElem_fin, Fin.val_zero, Fin.val_succ, List.getElem_cons_zero, List.getElem_cons_succ,
      Nat.add_sub_cancel, Nat.sub_zero]
    congr 1
    refine Finset.sum_congr rfl fun k _ => ?_
    rw [show xs.length - (k.val + 1) = xs.length - 1 - k.val by omega]

@[simp] theorem digitAt_toNat (v len k : Nat) : (digitAt v len k).toNat = v / 64 ^ (len - 1 - k) % 64 := by
  simp [digitAt, Nat.shiftRight_eq_div_pow, Nat.pow_mul]

@[simp] theorem byteAt_toNat (v len j : Nat) : (byteAt v len j).toNat = v / 256 ^ (len - 1 - j) % 256 := by
  simp [byteAt, Nat.shiftRight_eq_div_pow, Nat.pow_mul]

@[simp] theorem length_digitsOf (v len : Nat) : (digitsOf v len).length = len := by simp [digitsOf]

@[simp] theorem length_bytesOf (v len : Nat) : (bytesOf v len).length = len := by simp [bytesOf]

@[simp] theorem getElem_digitsOf (v len k : Nat) (h : k < (digitsOf v len).length) :
    (digitsOf v len)[k] = digitAt v len k := by simp [digitsOf]

@[simp] theorem getElem_bytesOf (v len k : Nat) (h : k < (bytesOf v len).length) :
    (bytesOf v len)[k] = byteAt v len k := by simp [bytesOf]

/-- One more digit on the left. -/
theorem digitsOf_succ (v len : Nat) : digitsOf v (len + 1) = BitVec.ofNat 6 (v / 64 ^ len) :: digitsOf v len := by
  apply List.ext_getElem (by simp)
  intro k h1 h2
  cases k with
  | zero =>
    apply BitVec.eq_of_toNat_eq
    simp
  | succ k =>
    apply BitVec.eq_of_toNat_eq
    simp
    congr 3
    omega

theorem bytesOf_succ (v len : Nat) : bytesOf v (len + 1) = BitVec.ofNat 8 (v / 256 ^ len) :: bytesOf v len := by
  apply List.ext_getElem (by simp)
  intro k h1 h2
  cases k with
  | zero =>
    apply BitVec.eq_of_toNat_eq
    simp
  | succ k =>
    apply BitVec.eq_of_toNat_eq
    simp
    congr 3
    omega

@[simp] theorem stringValue_nil : stringValue [] = 0 := rfl

theorem stringValue_cons (d : Digit) (ds : List Digit) :
    stringValue (d :: ds) = d.toNat * 64 ^ ds.length + stringValue ds := by
  simp [stringValue, beval_cons]

theorem stringValue_append (xs ys : List Digit) :
    stringValue (xs ++ ys) = stringValue xs * 64 ^ ys.length + stringValue ys := by
  simp [stringValue, beval_append]

theorem stringValue_lt (ds : List Digit) : stringValue ds < 64 ^ ds.length := by
  have := beval_lt (b := 64) (ds := ds.map BitVec.toNat) (by
    intro d hd
    obtain ⟨x, -, rfl⟩ := List.mem_map.mp hd
    exact x.isLt)
  simpa [stringValue] using this

theorem bufferValue_lt (cs : List Cell) : bufferValue cs < 256 ^ cs.length := by
  have := beval_lt (b := 256) (ds := cs.map BitVec.toNat) (by
    intro d hd
    obtain ⟨x, -, rfl⟩ := List.mem_map.mp hd
    exact x.isLt)
  simpa [bufferValue] using this

/-- The value of the digits of `v`. -/
theorem stringValue_digitsOf (v len : Nat) : stringValue (digitsOf v len) = v % 64 ^ len := by
  induction len with
  | zero => simp [digitsOf, Nat.mod_one]
  | succ len ih =>
    rw [digitsOf_succ, stringValue_cons, ih, length_digitsOf, BitVec.toNat_ofNat,
      show v % 64 ^ (len + 1) = _ from Nat.mod_mul (a := 64 ^ len) (b := 64), Nat.add_comm, Nat.mul_comm]

theorem bufferValue_bytesOf (v len : Nat) : bufferValue (bytesOf v len) = v % 256 ^ len := by
  induction len with
  | zero => simp [bytesOf, bufferValue, Nat.mod_one]
  | succ len ih =>
    rw [bytesOf_succ, bufferValue, List.map_cons, beval_cons, ← bufferValue, ih, List.length_map, length_bytesOf,
      BitVec.toNat_ofNat, show v % 256 ^ (len + 1) = _ from Nat.mod_mul (a := 256 ^ len) (b := 256), Nat.add_comm,
      Nat.mul_comm]
    rfl

/-- The digits of a string's value are the string's digits. -/
theorem digitsOf_stringValue (ds : List Digit) : digitsOf (stringValue ds) ds.length = ds := by
  apply List.ext_getElem (by simp)
  intro k h1 h2
  apply BitVec.eq_of_toNat_eq
  have := beval_place (b := 64) (ds := ds.map BitVec.toNat) (by
    intro d hd
    obtain ⟨x, -, rfl⟩ := List.mem_map.mp hd
    exact x.isLt) k (by simpa using h2)
  simpa [stringValue] using this

/-- The bytes of a buffer's value are the buffer's bytes. -/
theorem bytesOf_bufferValue (cs : List Cell) : bytesOf (bufferValue cs) cs.length = cs := by
  apply List.ext_getElem (by simp)
  intro k h1 h2
  apply BitVec.eq_of_toNat_eq
  have := beval_place (b := 256) (ds := cs.map BitVec.toNat) (by
    intro d hd
    obtain ⟨x, -, rfl⟩ := List.mem_map.mp hd
    exact x.isLt) k (by simpa using h2)
  simpa [bufferValue] using this

theorem clog64From_spec (x fuel k : Nat) (hf : x ≤ 64 ^ (k + fuel)) (hk : ∀ j, j < k → 64 ^ j < x) :
    x ≤ 64 ^ clog64From x fuel k ∧ ∀ j, j < clog64From x fuel k → 64 ^ j < x := by
  induction fuel generalizing k with
  | zero => exact ⟨hf, hk⟩
  | succ fuel ih =>
    unfold clog64From
    split
    · rename_i h
      exact ⟨h, hk⟩
    · rename_i h
      refine ih (k + 1) (by rwa [Nat.add_right_comm]) fun j hj => ?_
      rcases Nat.lt_succ_iff_lt_or_eq.mp hj with hj | rfl
      · exact hk j hj
      · omega

/-- `clog64(x)` reaches `x`, and no smaller exponent does (00_scope.md R16). -/
theorem clog64_spec (x : Nat) : x ≤ 64 ^ clog64 x ∧ ∀ j, j < clog64 x → 64 ^ j < x :=
  clog64From_spec x x 0 (by rw [Nat.zero_add]; exact (Nat.lt_pow_self (by decide)).le) (by simp)

/-- `isPow2(x)` (00_scope.md R16). -/
theorem isPow2_iff (x : Nat) : isPow2 x = true ↔ ∃ e, x = 2 ^ e := by
  unfold isPow2
  rw [beq_iff_eq]
  constructor
  · intro h
    exact ⟨_, h⟩
  · rintro ⟨e, rfl⟩
    rw [Nat.log2_two_pow]

/-- The default length of ENCINT is always sufficient (41_encoder.md R131). -/
theorem lt_pow_ldefInt (num : Nat) : num < 64 ^ ldefInt num := by
  unfold ldefInt
  split
  · rename_i h
    simp [h]
  · obtain ⟨reach, -⟩ := clog64_spec num
    by_cases hp : isPow2 num = true
    · calc num ≤ 64 ^ clog64 num := reach
        _ < 64 ^ (clog64 num + 1) := Nat.pow_lt_pow_right (by decide) (Nat.lt_succ_self _)
        _ ≤ _ := Nat.pow_le_pow_right (by decide) (by simp [hp])
    · have : num ≠ 64 ^ clog64 num := fun h =>
        hp ((isPow2_iff num).mpr ⟨6 * clog64 num, by rw [Nat.pow_mul]; exact h⟩)
      calc num < 64 ^ clog64 num := lt_of_le_of_ne reach this
        _ ≤ _ := Nat.pow_le_pow_right (by decide) (by simp [hp])

/-- The default length of ENCINT fits every capacity (41_encoder.md R134). -/
theorem ldefInt_le (num : IntWord) : ldefInt num.toNat ≤ 10 := by
  have hlt : num.toNat < 2 ^ 53 := num.isLt
  unfold ldefInt
  split
  · decide
  · have : clog64 num.toNat ≤ 9 := by
      by_contra h
      have := (clog64_spec num.toNat).2 9 (by omega)
      norm_num at this hlt
      omega
    split <;> omega

end Sys2Proof.Machine
end

