-- ==== Sys2Proof/Laws/Config.lean ====
section
/-! SUPPORT. All that is known of the open capacity NBUF: its range (spec/00_scope.md R10). -/

namespace Sys2Proof.Config

theorem nbuf_ge : 64 ≤ nbuf := Nat.le_add_left 64 _

theorem nbuf_lt : nbuf < 2 ^ 24 := by
  have h := nbufAbove64.isLt
  unfold nbuf
  omega

end Sys2Proof.Config
end

