-- ==== Sys2Proof/Laws/Flags.lean ====
section
/-! SUPPORT. The fields of STATUS and ERR_INFO after a completion. -/

namespace Sys2Proof.Machine

/-- A field inside the low part of a concatenation. -/
theorem extract_append_low {m n : Nat} (x : BitVec m) (y : BitVec n) (k l : Nat) (h : k + l ≤ n) :
    (x ++ y).extractLsb' k l = y.extractLsb' k l := by
  ext i hi
  simp [BitVec.getLsbD_append, show k + i < n by omega]

/-- A field inside the high part of a concatenation. -/
theorem extract_append_high {m n : Nat} (x : BitVec m) (y : BitVec n) (k l : Nat) :
    (x ++ y).extractLsb' (n + k) l = x.extractLsb' k l := by
  ext i hi
  simp [BitVec.getLsbD_append, show ¬ n + k + i < n by omega, show n + k + i - n = k + i by omega]

theorem extract_whole {n : Nat} (x : BitVec n) : x.extractLsb' 0 n = x := by
  ext i hi
  simp

@[simp] theorem statusCode_onSuccess (st : Word) : statusCode (statusOnSuccess st) = 0 :=
  (extract_append_low (statusReserved st) (statusSticky st ++ 0#4) 0 4 (by decide)).trans
    ((extract_append_low (statusSticky st) 0#4 0 4 (by decide)).trans (extract_whole 0#4))

@[simp] theorem statusSticky_onSuccess (st : Word) : statusSticky (statusOnSuccess st) = statusSticky st :=
  (extract_append_low (statusReserved st) (statusSticky st ++ 0#4) 4 1 (by decide)).trans
    ((extract_append_high (statusSticky st) 0#4 0 1).trans (extract_whole _))

@[simp] theorem statusReserved_onSuccess (st : Word) : statusReserved (statusOnSuccess st) = statusReserved st :=
  (extract_append_high (statusReserved st) (statusSticky st ++ 0#4) 0 27).trans (extract_whole _)

@[simp] theorem statusCode_onFailure (e : ErrCode) (st : Word) : statusCode (statusOnFailure e st) = e.number :=
  (extract_append_low (statusReserved st) (1#1 ++ e.number) 0 4 (by decide)).trans
    ((extract_append_low 1#1 e.number 0 4 (by decide)).trans (extract_whole _))

@[simp] theorem statusSticky_onFailure (e : ErrCode) (st : Word) : statusSticky (statusOnFailure e st) = 1 :=
  (extract_append_low (statusReserved st) (1#1 ++ e.number) 4 1 (by decide)).trans
    ((extract_append_high 1#1 e.number 0 1).trans (extract_whole 1#1))

@[simp] theorem statusReserved_onFailure (e : ErrCode) (st : Word) :
    statusReserved (statusOnFailure e st) = statusReserved st :=
  (extract_append_high (statusReserved st) (1#1 ++ e.number) 0 27).trans (extract_whole _)

@[simp] theorem errSub_errWord (sub : BitVec 4) (pos : Nat) : errSub (errWord sub pos) = sub :=
  (extract_append_low 0#4 (sub ++ BitVec.ofNat 24 pos) 24 4 (by decide)).trans
    ((extract_append_high sub (BitVec.ofNat 24 pos) 0 4).trans (extract_whole _))

@[simp] theorem errPos_errWord (sub : BitVec 4) (pos : Nat) : errPos (errWord sub pos) = BitVec.ofNat 24 pos :=
  (extract_append_low 0#4 (sub ++ BitVec.ofNat 24 pos) 0 24 (by decide)).trans
    ((extract_append_low sub (BitVec.ofNat 24 pos) 0 24 (by decide)).trans (extract_whole _))

@[simp] theorem errReserved_errWord (sub : BitVec 4) (pos : Nat) : errReserved (errWord sub pos) = 0 :=
  (extract_append_high 0#4 (sub ++ BitVec.ofNat 24 pos) 0 4).trans (extract_whole 0#4)

/-- Completing with success twice is completing once. -/
@[simp] theorem statusOnSuccess_twice (st : Word) : statusOnSuccess (statusOnSuccess st) = statusOnSuccess st := by
  rw [statusOnSuccess, statusReserved_onSuccess, statusSticky_onSuccess, ← statusOnSuccess]

/-- Failing twice with one code is failing once. -/
@[simp] theorem statusOnFailure_twice (e : ErrCode) (st : Word) :
    statusOnFailure e (statusOnFailure e st) = statusOnFailure e st := by
  rw [statusOnFailure, statusReserved_onFailure, ← statusOnFailure]

@[simp] theorem ErrCode.number_ne_zero (e : ErrCode) : e.number ≠ 0#4 := by
  cases e <;> decide

theorem ErrCode.number_injective {d e : ErrCode} (h : d.number = e.number) : d = e := by
  cases d <;> cases e <;> first | rfl | exact absurd h (by decide)

end Sys2Proof.Machine
end

