-- ==== Sys2Proof/Laws/Memory.lean ====
section
/-! SUPPORT. The laws of a cell memory: read after write, the canonical form, and writing a list of cells. -/

namespace Sys2Proof.Machine

@[simp] theorem Memory.read_nil (k : Nat) : Memory.read [] k = none := rfl

theorem Memory.read_cons (a : Nat) (v : Cell) (m : Memory) (k : Nat) :
    Memory.read ((a, v) :: m) k = if a = k then some v else Memory.read m k := rfl

theorem Memory.wf_nil : Memory.wf [] := List.Pairwise.nil

@[simp] theorem Memory.read_write_same (m : Memory) (k : Nat) (v : Cell) : (m.write k v).read k = some v := by
  induction m with
  | nil => simp [Memory.write, Memory.read_cons]
  | cons c m ih =>
    obtain ⟨a, w⟩ := c
    unfold Memory.write
    split
    · simp [Memory.read_cons]
    · split
      · simp [Memory.read_cons]
      · rename_i h
        simp [Memory.read_cons, ih, Ne.symm h]

@[simp] theorem Memory.read_write_other (m : Memory) (k j : Nat) (v : Cell) (h : k ≠ j) :
    (m.write k v).read j = m.read j := by
  induction m with
  | nil => simp [Memory.write, Memory.read_cons, h]
  | cons c m ih =>
    obtain ⟨a, w⟩ := c
    unfold Memory.write
    split
    · simp [Memory.read_cons, h]
    · split
      · rename_i h'
        subst h'
        simp [Memory.read_cons, h]
      · simp [Memory.read_cons, ih]

theorem Memory.read_write (m : Memory) (k j : Nat) (v : Cell) :
    (m.write k v).read j = if k = j then some v else m.read j := by
  split
  · rename_i h
    simp [h]
  · rename_i h
    simp [h]

/-- A written index is the one written or was listed before. -/
theorem Memory.mem_write {m : Memory} {k : Nat} {v : Cell} {c : Host.Cell} (h : c ∈ m.write k v) :
    c = (k, v) ∨ c ∈ m := by
  induction m with
  | nil => simpa [Memory.write] using h
  | cons d m ih =>
    obtain ⟨a, w⟩ := d
    unfold Memory.write at h
    split at h
    · simpa using h
    · split at h
      · simp only [List.mem_cons] at h ⊢
        tauto
      · simp only [List.mem_cons] at h ⊢
        rcases h with h | h
        · exact .inr (.inl h)
        · rcases ih h with h | h
          · exact .inl h
          · exact .inr (.inr h)

theorem Memory.write_wf {m : Memory} (k : Nat) (v : Cell) (h : m.wf) : (m.write k v).wf := by
  induction m with
  | nil => simp [Memory.write, Memory.wf]
  | cons c m ih =>
    obtain ⟨a, w⟩ := c
    obtain ⟨ha, hm⟩ := List.pairwise_cons.mp h
    unfold Memory.write
    split
    · rename_i hk
      refine List.pairwise_cons.mpr ⟨?_, h⟩
      intro c hc
      rcases List.mem_cons.mp hc with rfl | hc
      · exact hk
      · exact Nat.lt_trans hk (ha c hc)
    · split
      · rename_i hk
        subst hk
        exact List.pairwise_cons.mpr ⟨ha, hm⟩
      · refine List.pairwise_cons.mpr ⟨?_, ih hm⟩
        intro c hc
        rcases Memory.mem_write hc with rfl | hc
        · show a < k
          omega
        · exact ha c hc

/-- Writing a cell again changes nothing. -/
theorem Memory.write_write (m : Memory) (k : Nat) (v : Cell) : (m.write k v).write k v = m.write k v := by
  induction m with
  | nil => simp [Memory.write]
  | cons c m ih =>
    obtain ⟨a, w⟩ := c
    by_cases h1 : k < a
    · simp [Memory.write, h1]
    · by_cases h2 : k = a
      · simp [Memory.write, h2]
      · simp [Memory.write, h1, h2, ih]

/-- Writes at two indexes commute. -/
theorem Memory.write_comm (m : Memory) (k j : Nat) (v w : Cell) (h : k ≠ j) :
    (m.write k v).write j w = (m.write j w).write k v := by
  induction m with
  | nil =>
    rcases Nat.lt_or_gt_of_ne h with h | h
    · simp [Memory.write, h, Nat.not_lt_of_gt h, Nat.ne_of_gt h]
    · simp [Memory.write, h, Nat.not_lt_of_gt h, Nat.ne_of_gt h]
  | cons c m ih =>
    obtain ⟨a, x⟩ := c
    rcases Nat.lt_trichotomy k a with h1 | h1 | h1 <;> rcases Nat.lt_trichotomy j a with h2 | h2 | h2
    · rcases Nat.lt_or_gt_of_ne h with h3 | h3 <;>
        simp [Memory.write, h1, h2, h3, Nat.not_lt_of_gt h3, Nat.ne_of_gt h3]
    · subst h2
      simp [Memory.write, h1, Nat.not_lt_of_gt h1, Nat.ne_of_gt h1]
    · have h3 : k < j := Nat.lt_trans h1 h2
      simp [Memory.write, h1, Nat.not_lt_of_gt h2, Nat.ne_of_gt h2, Nat.not_lt_of_gt h3, Nat.ne_of_gt h3]
    · subst h1
      simp [Memory.write, h2, Nat.not_lt_of_gt h2, Nat.ne_of_gt h2]
    · exact absurd (h1.trans h2.symm) h
    · subst h1
      simp [Memory.write, Nat.not_lt_of_gt h2, Nat.ne_of_gt h2]
    · have h3 : j < k := Nat.lt_trans h2 h1
      simp [Memory.write, h2, Nat.not_lt_of_gt h1, Nat.ne_of_gt h1, Nat.not_lt_of_gt h3, Nat.ne_of_gt h3]
    · subst h2
      simp [Memory.write, Nat.not_lt_of_gt h1, Nat.ne_of_gt h1]
    · simp [Memory.write, Nat.not_lt_of_gt h1, Nat.ne_of_gt h1, Nat.not_lt_of_gt h2, Nat.ne_of_gt h2, ih]

theorem Memory.writeList_write (m : Memory) (k j : Nat) (v : Cell) (vs : List Cell) (h : j < k) :
    (m.write j v).writeList k vs = (m.writeList k vs).write j v := by
  induction vs generalizing m k with
  | nil => rfl
  | cons w vs ih =>
    simp only [Memory.writeList]
    rw [Memory.write_comm _ _ _ _ _ (Nat.ne_of_lt h), ih _ _ (Nat.lt_succ_of_lt h)]

/-- Writing a list of cells again changes nothing. -/
theorem Memory.writeList_writeList (m : Memory) (k : Nat) (vs : List Cell) :
    (m.writeList k vs).writeList k vs = m.writeList k vs := by
  induction vs generalizing m k with
  | nil => rfl
  | cons v vs ih =>
    have again : ((m.write k v).writeList (k + 1) vs).write k v = (m.write k v).writeList (k + 1) vs := by
      rw [← Memory.writeList_write _ _ _ _ _ (Nat.lt_add_one k), Memory.write_write]
    simp only [Memory.writeList, again, ih]

theorem Memory.writeList_wf {m : Memory} (k : Nat) (vs : List Cell) (h : m.wf) : (m.writeList k vs).wf := by
  induction vs generalizing m k with
  | nil => exact h
  | cons v vs ih => exact ih (k + 1) (Memory.write_wf k v h)

theorem Memory.read_writeList_below (m : Memory) (k j : Nat) (vs : List Cell) (h : j < k) :
    (m.writeList k vs).read j = m.read j := by
  induction vs generalizing m k with
  | nil => rfl
  | cons v vs ih =>
    rw [Memory.writeList, ih _ _ (Nat.lt_succ_of_lt h), Memory.read_write_other _ _ _ _ (Nat.ne_of_gt h)]

theorem Memory.read_writeList_inside (m : Memory) (k j : Nat) (vs : List Cell) (h : j < vs.length) :
    (m.writeList k vs).read (k + j) = vs[j]? := by
  induction vs generalizing m k j with
  | nil => simp at h
  | cons v vs ih =>
    rw [Memory.writeList]
    cases j with
    | zero =>
      show ((m.write k v).writeList (k + 1) vs).read k = some v
      rw [Memory.read_writeList_below _ _ _ _ (Nat.lt_add_one k), Memory.read_write_same]
    | succ j =>
      have := ih (m.write k v) (k + 1) j (by simpa using h)
      rw [Nat.add_right_comm] at this
      simpa [Nat.add_assoc] using this

theorem Memory.read_writeList_above (m : Memory) (k j : Nat) (vs : List Cell) (h : k + vs.length ≤ j) :
    (m.writeList k vs).read j = m.read j := by
  induction vs generalizing m k with
  | nil => rfl
  | cons v vs ih =>
    simp only [List.length_cons] at h
    rw [Memory.writeList, ih _ _ (by omega), Memory.read_write_other _ _ _ _ (by omega)]

/-- What a memory reads after a list of cells is written from index 0 on. -/
theorem Memory.read_writeList_zero (m : Memory) (j : Nat) (vs : List Cell) :
    (m.writeList 0 vs).read j = if j < vs.length then vs[j]? else m.read j := by
  split
  · rename_i h
    simpa using Memory.read_writeList_inside m 0 j vs h
  · rename_i h
    exact Memory.read_writeList_above m 0 j vs (by omega)

end Sys2Proof.Machine
end

