-- ==== Sys2Proof/Laws/State.lean ====
section
/-! SUPPORT. One lemma per field per state update, each true by unfolding the update once. -/

namespace Sys2Proof.Machine

@[simp] theorem raiseError_lut (e : ErrCode) (sub : BitVec 4) (pos : Nat) (s : State) :
    (raiseError e sub pos s).lut = s.lut := rfl
@[simp] theorem raiseError_rlut (e : ErrCode) (sub : BitVec 4) (pos : Nat) (s : State) :
    (raiseError e sub pos s).rlut = s.rlut := rfl
@[simp] theorem raiseError_src (e : ErrCode) (sub : BitVec 4) (pos : Nat) (s : State) :
    (raiseError e sub pos s).src = s.src := rfl
@[simp] theorem raiseError_dst (e : ErrCode) (sub : BitVec 4) (pos : Nat) (s : State) :
    (raiseError e sub pos s).dst = s.dst := rfl
@[simp] theorem raiseError_srcLen (e : ErrCode) (sub : BitVec 4) (pos : Nat) (s : State) :
    (raiseError e sub pos s).srcLen = s.srcLen := rfl
@[simp] theorem raiseError_intIn (e : ErrCode) (sub : BitVec 4) (pos : Nat) (s : State) :
    (raiseError e sub pos s).intIn = s.intIn := rfl
@[simp] theorem raiseError_outLen (e : ErrCode) (sub : BitVec 4) (pos : Nat) (s : State) :
    (raiseError e sub pos s).outLen = s.outLen := rfl
@[simp] theorem raiseError_intOut (e : ErrCode) (sub : BitVec 4) (pos : Nat) (s : State) :
    (raiseError e sub pos s).intOut = s.intOut := rfl
@[simp] theorem raiseError_status (e : ErrCode) (sub : BitVec 4) (pos : Nat) (s : State) :
    (raiseError e sub pos s).status = statusOnFailure e s.status := rfl
@[simp] theorem raiseError_errInfo (e : ErrCode) (sub : BitVec 4) (pos : Nat) (s : State) :
    (raiseError e sub pos s).errInfo = errWord sub pos := rfl
@[simp] theorem raiseError_host (e : ErrCode) (sub : BitVec 4) (pos : Nat) (s : State) :
    (raiseError e sub pos s).host = s.host := rfl
@[simp] theorem raiseError_replies (e : ErrCode) (sub : BitVec 4) (pos : Nat) (s : State) :
    (raiseError e sub pos s).replies = s.replies := rfl

@[simp] theorem complete_lut (s : State) :
    (complete s).lut = s.lut := rfl
@[simp] theorem complete_rlut (s : State) :
    (complete s).rlut = s.rlut := rfl
@[simp] theorem complete_src (s : State) :
    (complete s).src = s.src := rfl
@[simp] theorem complete_dst (s : State) :
    (complete s).dst = s.dst := rfl
@[simp] theorem complete_srcLen (s : State) :
    (complete s).srcLen = s.srcLen := rfl
@[simp] theorem complete_intIn (s : State) :
    (complete s).intIn = s.intIn := rfl
@[simp] theorem complete_outLen (s : State) :
    (complete s).outLen = s.outLen := rfl
@[simp] theorem complete_intOut (s : State) :
    (complete s).intOut = s.intOut := rfl
@[simp] theorem complete_status (s : State) :
    (complete s).status = statusOnSuccess s.status := rfl
@[simp] theorem complete_errInfo (s : State) :
    (complete s).errInfo = 0 := rfl
@[simp] theorem complete_host (s : State) :
    (complete s).host = s.host := rfl
@[simp] theorem complete_replies (s : State) :
    (complete s).replies = s.replies := rfl

@[simp] theorem writeOutput_lut (out : List Cell) (s : State) :
    (writeOutput out s).lut = s.lut := rfl
@[simp] theorem writeOutput_rlut (out : List Cell) (s : State) :
    (writeOutput out s).rlut = s.rlut := rfl
@[simp] theorem writeOutput_src (out : List Cell) (s : State) :
    (writeOutput out s).src = s.src := rfl
@[simp] theorem writeOutput_dst (out : List Cell) (s : State) :
    (writeOutput out s).dst = s.dst.writeList 0 out := rfl
@[simp] theorem writeOutput_srcLen (out : List Cell) (s : State) :
    (writeOutput out s).srcLen = s.srcLen := rfl
@[simp] theorem writeOutput_intIn (out : List Cell) (s : State) :
    (writeOutput out s).intIn = s.intIn := rfl
@[simp] theorem writeOutput_outLen (out : List Cell) (s : State) :
    (writeOutput out s).outLen = BitVec.ofNat 24 out.length := rfl
@[simp] theorem writeOutput_intOut (out : List Cell) (s : State) :
    (writeOutput out s).intOut = s.intOut := rfl
@[simp] theorem writeOutput_status (out : List Cell) (s : State) :
    (writeOutput out s).status = s.status := rfl
@[simp] theorem writeOutput_errInfo (out : List Cell) (s : State) :
    (writeOutput out s).errInfo = s.errInfo := rfl
@[simp] theorem writeOutput_host (out : List Cell) (s : State) :
    (writeOutput out s).host = s.host := rfl
@[simp] theorem writeOutput_replies (out : List Cell) (s : State) :
    (writeOutput out s).replies = s.replies := rfl

@[simp] theorem loadCodec_lut (lut : Alphabet) (s : State) :
    (loadCodec lut s).lut = lut := rfl
@[simp] theorem loadCodec_rlut (lut : Alphabet) (s : State) :
    (loadCodec lut s).rlut = deriveRlut lut := rfl
@[simp] theorem loadCodec_src (lut : Alphabet) (s : State) :
    (loadCodec lut s).src = s.src := rfl
@[simp] theorem loadCodec_dst (lut : Alphabet) (s : State) :
    (loadCodec lut s).dst = s.dst := rfl
@[simp] theorem loadCodec_srcLen (lut : Alphabet) (s : State) :
    (loadCodec lut s).srcLen = s.srcLen := rfl
@[simp] theorem loadCodec_intIn (lut : Alphabet) (s : State) :
    (loadCodec lut s).intIn = s.intIn := rfl
@[simp] theorem loadCodec_outLen (lut : Alphabet) (s : State) :
    (loadCodec lut s).outLen = s.outLen := rfl
@[simp] theorem loadCodec_intOut (lut : Alphabet) (s : State) :
    (loadCodec lut s).intOut = s.intOut := rfl
@[simp] theorem loadCodec_status (lut : Alphabet) (s : State) :
    (loadCodec lut s).status = s.status := rfl
@[simp] theorem loadCodec_errInfo (lut : Alphabet) (s : State) :
    (loadCodec lut s).errInfo = s.errInfo := rfl
@[simp] theorem loadCodec_host (lut : Alphabet) (s : State) :
    (loadCodec lut s).host = s.host := rfl
@[simp] theorem loadCodec_replies (lut : Alphabet) (s : State) :
    (loadCodec lut s).replies = s.replies := rfl

@[simp] theorem State.reply_lut (s : State) (v : Nat) :
    (s.reply v).lut = s.lut := rfl
@[simp] theorem State.reply_rlut (s : State) (v : Nat) :
    (s.reply v).rlut = s.rlut := rfl
@[simp] theorem State.reply_src (s : State) (v : Nat) :
    (s.reply v).src = s.src := rfl
@[simp] theorem State.reply_dst (s : State) (v : Nat) :
    (s.reply v).dst = s.dst := rfl
@[simp] theorem State.reply_srcLen (s : State) (v : Nat) :
    (s.reply v).srcLen = s.srcLen := rfl
@[simp] theorem State.reply_intIn (s : State) (v : Nat) :
    (s.reply v).intIn = s.intIn := rfl
@[simp] theorem State.reply_outLen (s : State) (v : Nat) :
    (s.reply v).outLen = s.outLen := rfl
@[simp] theorem State.reply_intOut (s : State) (v : Nat) :
    (s.reply v).intOut = s.intOut := rfl
@[simp] theorem State.reply_status (s : State) (v : Nat) :
    (s.reply v).status = s.status := rfl
@[simp] theorem State.reply_errInfo (s : State) (v : Nat) :
    (s.reply v).errInfo = s.errInfo := rfl
@[simp] theorem State.reply_host (s : State) (v : Nat) :
    (s.reply v).host = s.host := rfl
@[simp] theorem State.reply_replies (s : State) (v : Nat) :
    (s.reply v).replies = v :: s.replies := rfl

@[simp] theorem hostReset_lut (s : State) :
    (hostReset s).lut = State.reset.lut := rfl
@[simp] theorem hostReset_rlut (s : State) :
    (hostReset s).rlut = State.reset.rlut := rfl
@[simp] theorem hostReset_src (s : State) :
    (hostReset s).src = State.reset.src := rfl
@[simp] theorem hostReset_dst (s : State) :
    (hostReset s).dst = State.reset.dst := rfl
@[simp] theorem hostReset_srcLen (s : State) :
    (hostReset s).srcLen = State.reset.srcLen := rfl
@[simp] theorem hostReset_intIn (s : State) :
    (hostReset s).intIn = State.reset.intIn := rfl
@[simp] theorem hostReset_outLen (s : State) :
    (hostReset s).outLen = State.reset.outLen := rfl
@[simp] theorem hostReset_intOut (s : State) :
    (hostReset s).intOut = State.reset.intOut := rfl
@[simp] theorem hostReset_status (s : State) :
    (hostReset s).status = State.reset.status := rfl
@[simp] theorem hostReset_errInfo (s : State) :
    (hostReset s).errInfo = State.reset.errInfo := rfl
@[simp] theorem hostReset_host (s : State) :
    (hostReset s).host = s.host := rfl
@[simp] theorem hostReset_replies (s : State) :
    (hostReset s).replies = s.replies := rfl

@[simp] theorem State.reset_lut : State.reset.lut = defaultAlphabet := rfl
@[simp] theorem State.reset_rlut : State.reset.rlut = deriveRlut defaultAlphabet := rfl
@[simp] theorem State.reset_src : State.reset.src = [] := rfl
@[simp] theorem State.reset_dst : State.reset.dst = [] := rfl
@[simp] theorem State.reset_srcLen : State.reset.srcLen = 0 := rfl
@[simp] theorem State.reset_intIn : State.reset.intIn = 0 := rfl
@[simp] theorem State.reset_outLen : State.reset.outLen = 0 := rfl
@[simp] theorem State.reset_intOut : State.reset.intOut = 0 := rfl
@[simp] theorem State.reset_status : State.reset.status = 0 := rfl
@[simp] theorem State.reset_errInfo : State.reset.errInfo = 0 := rfl
@[simp] theorem State.reset_host : State.reset.host = [] := rfl
@[simp] theorem State.reset_replies : State.reset.replies = [] := rfl

end Sys2Proof.Machine
end

