-- ==== Sys2Proof/Laws/Ops.lean ====
section
/-! SUPPORT. Everything the shared operations can do: the ends of a command, the checks, and the scan of SRC. -/

namespace Sys2Proof.Machine

/-! ## The ends of a command -/

theorem succeeded_complete {s u : State} (hs : u.status = s.status) : Succeeded s (complete u) where
  code := by simp
  sticky := by simp [hs]
  reserved := by simp [hs]
  info := by simp

theorem failedWith_raiseError (e : ErrCode) (sub : BitVec 4) (pos : Nat) (s : State) (h : pos < 2 ^ 24) :
    FailedWith e.number sub.toNat pos s (raiseError e sub pos s) where
  code := by simp
  sticky := by simp
  reserved := by simp
  sub := by simp
  pos := by
    simp only [raiseError_errInfo, errPos_errWord, BitVec.toNat_ofNat]
    exact Nat.mod_eq_of_lt h
  infoReserved := by simp
  frame := rfl

/-- The three ends of a command. -/
theorem endCommand_next {s t : State} {r : Except Stop State} :
    endCommand s r = .next t ↔
      (∃ u, r = .ok u ∧ t = complete u) ∨ ∃ e sub pos, r = .error (.raise e sub pos) ∧ t = raiseError e sub pos s := by
  rcases r with (⟨e, sub, pos⟩ | k) | u
  · simp only [endCommand, Host.Outcome.next.injEq, reduceCtorEq, false_and, exists_false, Except.error.injEq,
      Stop.raise.injEq, false_or]
    constructor
    · rintro rfl
      exact ⟨e, sub, pos, ⟨rfl, rfl, rfl⟩, rfl⟩
    · rintro ⟨e', sub', pos', ⟨rfl, rfl, rfl⟩, rfl⟩
      rfl
  · simp [endCommand]
  · simp [endCommand, eq_comm]

@[simp] theorem endCommand_ok (s u : State) : endCommand s (.ok u) = .next (complete u) := rfl

@[simp] theorem endCommand_raise (s : State) (e : ErrCode) (sub : BitVec 4) (pos : Nat) :
    endCommand s (.error (.raise e sub pos)) = .next (raiseError e sub pos s) := rfl

@[simp] theorem endCommand_unwritten (s : State) (k : Nat) :
    endCommand s (.error (.unwritten k)) = .fault (.unwrittenSrc k) := rfl

/-! ## What a success leaves unchanged

Each is proved for an arbitrary reverse table, so that no proof compares derived tables by unfolding them. -/

theorem frame_storeCodec (lut : Alphabet) (rlut : ReverseMap) (s t : State)
    (h : t = complete { s with lut := lut, rlut := rlut }) :
    t = { s with lut := t.lut, rlut := t.rlut, status := t.status, errInfo := t.errInfo } := by
  subst h
  rfl

theorem frame_loadCodec (lut : Alphabet) (s : State) :
    complete (loadCodec lut s) =
      { s with
        lut := (complete (loadCodec lut s)).lut
        rlut := (complete (loadCodec lut s)).rlut
        status := (complete (loadCodec lut s)).status
        errInfo := (complete (loadCodec lut s)).errInfo } :=
  frame_storeCodec lut (deriveRlut lut) s _ rfl

theorem frame_writeOutput (out : List Cell) (s : State) :
    complete (writeOutput out s) =
      { s with
        dst := (complete (writeOutput out s)).dst
        outLen := (complete (writeOutput out s)).outLen
        status := (complete (writeOutput out s)).status
        errInfo := (complete (writeOutput out s)).errInfo } := rfl

theorem succeeded_loadCodec (lut : Alphabet) (s : State) : Succeeded s (complete (loadCodec lut s)) :=
  succeeded_complete (loadCodec_status lut s)

theorem succeeded_writeOutput (out : List Cell) (s : State) : Succeeded s (complete (writeOutput out s)) :=
  succeeded_complete (writeOutput_status out s)

/-! ## Checks in sequence -/

@[simp] theorem require_bind {α : Type} (c : Prop) [Decidable c] (e : ErrCode) (sub : BitVec 4) (pos : Nat)
    (f : Unit → Except Stop α) :
    (require c e sub pos >>= f) = if c then f () else .error (.raise e sub pos) := by
  unfold require
  split <;> rfl

@[simp] theorem requireInput_bind {α : Type} (n : Nat) (s : State) (f : Unit → Except Stop α) :
    (requireInput n s >>= f) = if s.srcLen.toNat ≤ n then f () else .error (.raise .capacity 1 0) :=
  require_bind _ _ _ _ _

@[simp] theorem requireOutput_bind {α : Type} (n len : Nat) (f : Unit → Except Stop α) :
    (requireOutput n len >>= f) = if len ≤ n then f () else .error (.raise .capacity 2 0) :=
  require_bind _ _ _ _ _

@[simp] theorem ok_bind {α β : Type} (a : α) (f : α → Except Stop β) : (Except.ok a >>= f) = f a := rfl

@[simp] theorem error_bind {α β : Type} (e : Stop) (f : α → Except Stop β) :
    (Except.error e >>= f) = .error e := rfl

@[simp] theorem pure_eq_ok {α : Type} (a : α) : (pure a : Except Stop α) = .ok a := rfl

/-! ## The scan of SRC -/

/-- The cells `cs`, from index `k` on and after the cells `seen`, are written and pass the check. -/
def Passes (check : List Cell → Nat → Cell → Option Stop) (m : Memory) : Nat → List Cell → List Cell → Prop
  | _, _, [] => True
  | k, seen, c :: cs => m.read k = some c ∧ check seen k c = none ∧ Passes check m (k + 1) (c :: seen) cs

theorem passes_iff {check : List Cell → Nat → Cell → Option Stop} {m : Memory} {k : Nat} {seen cs : List Cell} :
    Passes check m k seen cs ↔ ∀ j (h : j < cs.length),
      m.read (k + j) = some cs[j] ∧ check ((cs.take j).reverse ++ seen) (k + j) cs[j] = none := by
  induction cs generalizing k seen with
  | nil => simp [Passes]
  | cons c cs ih =>
    rw [Passes, ih]
    constructor
    · rintro ⟨hr, hc, h⟩ j hj
      cases j with
      | zero => exact ⟨hr, hc⟩
      | succ j =>
        have := h j (by simpa using hj)
        rw [Nat.add_right_comm, Nat.add_assoc k j 1] at this
        simpa using this
    · intro h
      refine ⟨(h 0 (by simp)).1, (h 0 (by simp)).2, fun j hj => ?_⟩
      have := h (j + 1) (by simpa using hj)
      rw [Nat.add_right_comm, Nat.add_assoc k j 1]
      simpa using this

/-- A scan that completes has read cells that all pass. -/
theorem scanCells_ok {check : List Cell → Nat → Cell → Option Stop} {m : Memory} {n k : Nat} {seen cs : List Cell} :
    scanCells check m n k seen = .ok cs ↔ cs.length = n ∧ Passes check m k seen cs := by
  induction n generalizing k seen cs with
  | zero =>
    simp only [scanCells, Except.ok.injEq, List.length_eq_zero_iff]
    constructor
    · rintro rfl
      exact ⟨rfl, trivial⟩
    · rintro ⟨rfl, -⟩
      rfl
  | succ n ih =>
    constructor
    · intro h
      simp only [scanCells] at h
      split at h
      · cases h
      · rename_i c hr
        split at h
        · cases h
        · rename_i hc
          split at h
          · cases h
          · rename_i ds hs
            cases h
            obtain ⟨hl, hp⟩ := ih.mp hs
            exact ⟨by simp [hl], hr, hc, hp⟩
    · rintro ⟨hl, hp⟩
      cases cs with
      | nil => simp at hl
      | cons c cs =>
        obtain ⟨hr, hc, hp⟩ := hp
        simp [scanCells, hr, hc, ih.mpr ⟨by simpa using hl, hp⟩]

/-- A scan that stops has read cells that pass, and stops at the next one. -/
theorem scanCells_error {check : List Cell → Nat → Cell → Option Stop} {m : Memory} {n k : Nat} {seen : List Cell}
    {stop : Stop} :
    scanCells check m n k seen = .error stop ↔
      ∃ cs, cs.length < n ∧ Passes check m k seen cs ∧
        ((m.read (k + cs.length) = none ∧ stop = .unwritten (k + cs.length)) ∨
          ∃ c, m.read (k + cs.length) = some c ∧ check (cs.reverse ++ seen) (k + cs.length) c = some stop) := by
  induction n generalizing k seen with
  | zero => simp [scanCells]
  | succ n ih =>
    constructor
    · intro h
      simp only [scanCells] at h
      split at h
      · rename_i hr
        cases h
        exact ⟨[], by simp, trivial, .inl ⟨hr, rfl⟩⟩
      · rename_i c hr
        split at h
        · rename_i hc
          cases h
          exact ⟨[], by simp, trivial, .inr ⟨c, hr, hc⟩⟩
        · rename_i hc
          split at h
          · rename_i hs
            cases h
            obtain ⟨cs, hl, hp, hend⟩ := ih.mp hs
            refine ⟨c :: cs, by simpa using hl, ⟨hr, hc, hp⟩, ?_⟩
            rw [Nat.add_right_comm, Nat.add_assoc k cs.length 1] at hend
            simpa using hend
          · cases h
    · rintro ⟨cs, hl, hp, hend⟩
      cases cs with
      | nil =>
        rcases hend with ⟨hr, rfl⟩ | ⟨c, hr, hc⟩
        · simp only [List.length_nil, Nat.add_zero] at hr
          simp [scanCells, hr]
        · simp only [List.length_nil, Nat.add_zero, List.reverse_nil, List.nil_append] at hr hc
          simp [scanCells, hr, hc]
      | cons c cs =>
        obtain ⟨hr, hc, hp⟩ := hp
        have : scanCells check m n (k + 1) (c :: seen) = .error stop := by
          refine ih.mpr ⟨cs, by simpa using hl, hp, ?_⟩
          rw [Nat.add_right_comm, Nat.add_assoc k cs.length 1]
          simpa using hend
        simp [scanCells, hr, hc, this]

/-- The input of a command, as the scan reads it. -/
theorem passes_of_reads {check : List Cell → Nat → Cell → Option Stop} {m : Memory} {cs : List Cell}
    (hr : ∀ k, k < cs.length → m.read k = cs[k]?)
    (hc : ∀ k (h : k < cs.length), check (cs.take k).reverse k cs[k] = none) : Passes check m 0 [] cs := by
  refine passes_iff.mpr fun j hj => ?_
  simp only [Nat.zero_add, List.append_nil]
  exact ⟨by rw [hr j hj, List.getElem?_eq_getElem hj], hc j hj⟩

theorem scanSrc_ok_of_holds {check : List Cell → Nat → Cell → Option Stop} {s : State} {cs : List Cell}
    (h : s.srcHolds cs) (hc : ∀ k (h : k < cs.length), check (cs.take k).reverse k cs[k] = none) :
    scanSrc check s = .ok cs := by
  unfold scanSrc
  rw [h.1]
  exact scanCells_ok.mpr ⟨rfl, passes_of_reads h.2 hc⟩

theorem holds_of_scanSrc_ok {check : List Cell → Nat → Cell → Option Stop} {s : State} {cs : List Cell}
    (h : scanSrc check s = .ok cs) :
    s.srcHolds cs ∧ ∀ k (h : k < cs.length), check (cs.take k).reverse k cs[k] = none := by
  obtain ⟨hl, hp⟩ := scanCells_ok.mp h
  have hp := passes_iff.mp hp
  refine ⟨⟨hl.symm, fun k hk => ?_⟩, fun k hk => ?_⟩
  · have := (hp k hk).1
    rw [Nat.zero_add] at this
    rw [this, List.getElem?_eq_getElem hk]
  · simpa using (hp k hk).2

/-- The scan faults on the first unwritten cell when the cells before it pass. -/
theorem scanSrc_unwritten {check : List Cell → Nat → Cell → Option Stop} {s : State} {cs : List Cell}
    (hl : cs.length < s.srcLen.toNat) (hr : ∀ k, k < cs.length → s.src.read k = cs[k]?)
    (hc : ∀ k (h : k < cs.length), check (cs.take k).reverse k cs[k] = none) (hu : s.src.read cs.length = none) :
    scanSrc check s = .error (.unwritten cs.length) :=
  scanCells_error.mpr ⟨cs, hl, passes_of_reads hr hc, .inl (by simpa using hu)⟩

/-- The scan raises the error of the first cell that fails when the cells before it pass. -/
theorem scanSrc_raise {check : List Cell → Nat → Cell → Option Stop} {s : State} {cs : List Cell} {c : Cell}
    {stop : Stop} (hl : cs.length < s.srcLen.toNat) (hr : ∀ k, k < cs.length → s.src.read k = cs[k]?)
    (hc : ∀ k (h : k < cs.length), check (cs.take k).reverse k cs[k] = none)
    (hk : s.src.read cs.length = some c) (hf : check cs.reverse cs.length c = some stop) :
    scanSrc check s = .error stop :=
  scanCells_error.mpr ⟨cs, hl, passes_of_reads hr hc, .inr ⟨c, by simpa using hk, by simpa using hf⟩⟩

/-! ## The checks on source cells -/

/-- Every cell of 8 bits is a byte (20_memory.md R54). -/
@[simp] theorem byteCheck_eq_none (seen : List Cell) (k : Nat) (c : Cell) : byteCheck seen k c = none := by
  have : c.toNat < 256 := c.isLt
  simp [byteCheck]
  omega

theorem repeatCheck_eq_none {seen : List Cell} {k : Nat} {c : Cell} : repeatCheck seen k c = none ↔ c ∉ seen := by
  simp [repeatCheck]

theorem decodeCheck_eq_none {rlut : ReverseMap} {seen : List Cell} {k : Nat} {c : Cell} :
    decodeCheck rlut seen k c = none ↔ (rlut.entry c).valid = true := by
  simp [decodeCheck]

/-- The repeat check passes at every index exactly when no cell repeats. -/
theorem repeatCheck_none_iff_nodup (cs : List Cell) :
    (∀ k (h : k < cs.length), repeatCheck (cs.take k).reverse k cs[k] = none) ↔ cs.Nodup := by
  simp only [repeatCheck_eq_none, List.mem_reverse]
  rw [List.nodup_iff_pairwise_ne, List.pairwise_iff_getElem]
  constructor
  · intro h i j hi hj hij heq
    exact h j hj (List.mem_take_iff_getElem.mpr ⟨i, by omega, heq⟩)
  · intro h k hk hm
    obtain ⟨i, hi, heq⟩ := List.mem_take_iff_getElem.mp hm
    exact h i k (by omega) hk (by omega) heq

/-! ## Writing an output -/

theorem dstHolds_writeOutput {out : List Cell} {s : State} (h : out.length < 2 ^ 24) :
    (complete (writeOutput out s)).dstHolds out := by
  refine ⟨?_, fun k hk => ?_⟩
  · simp only [complete_outLen, writeOutput_outLen, BitVec.toNat_ofNat]
    exact Nat.mod_eq_of_lt h
  · simp [Memory.read_writeList_zero, hk]

end Sys2Proof.Machine
end

