-- ==== Sys2Proof/Laws/Commands.lean ====
section
/-! SUPPORT. What each command answers, said once: on operands that are in place, and whenever it answers a next
state. -/

namespace Sys2Proof.Machine

theorem outputLength_eq (len : Option Nat) (d : Nat) : outputLength len d = len.getD d := by
  cases len <;> rfl

@[simp] theorem Alphabet.length_chars (lut : Alphabet) (ds : List Digit) : (lut.chars ds).length = ds.length := by
  simp [Alphabet.chars]

@[simp] theorem ReverseMap.length_digits (rlut : ReverseMap) (cs : List Cell) :
    (rlut.digits cs).length = cs.length := by simp [ReverseMap.digits]

/-- A byte zero-extended to a cell of 8 bits is itself (20_memory.md R54). -/
theorem map_zeroExtend (bs : List Byte) : bs.map (BitVec.setWidth Config.charW) = bs := by
  rw [show (BitVec.setWidth Config.charW : Byte → Cell) = id from funext fun b => BitVec.setWidth_eq b, List.map_id]

/-! ## The commands as nested checks -/

theorem ldalphaCommand_eq (n : Nat) (s : State) :
    ldalphaCommand n s =
      if s.srcLen.toNat ≤ n then
        if s.srcLen.toNat = 64 then scanSrc repeatCheck s >>= fun cs => .ok (loadCodec (Alphabet.ofCells cs) s)
        else .error (.raise .alphabet 1 s.srcLen.toNat)
      else .error (.raise .capacity 1 0) := by
  simp [ldalphaCommand]

theorem encbufCommand_eq (n : Nat) (len : Option Nat) (s : State) :
    encbufCommand n len s =
      if s.srcLen.toNat ≤ n then
        scanSrc byteCheck s >>= fun cs =>
          if outputLength len (ldefBuf s.srcLen.toNat) ≤ n then
            .ok (writeOutput (s.lut.chars (digitsOf (bufferValue cs) (outputLength len (ldefBuf s.srcLen.toNat)))) s)
          else .error (.raise .capacity 2 0)
      else .error (.raise .capacity 1 0) := by
  simp [encbufCommand, outputLength_eq]

theorem encintCommand_eq (n : Nat) (len : Option Nat) (s : State) :
    encintCommand n len s =
      if outputLength len (ldefInt s.intIn.toNat) ≤ n then
        requireFits len s.intIn.toNat >>= fun _ =>
          .ok (writeOutput (s.lut.chars (digitsOf s.intIn.toNat (outputLength len (ldefInt s.intIn.toNat)))) s)
      else .error (.raise .capacity 2 0) := by
  simp [encintCommand, outputLength_eq]

theorem decbufCommand_eq (n : Nat) (bytes : Option Nat) (s : State) :
    decbufCommand n bytes s =
      if s.srcLen.toNat ≤ n then
        scanSrc (decodeCheck s.rlut) s >>= fun cs =>
          if outputLength bytes (ldefDec s.srcLen.toNat) ≤ n then
            .ok (writeOutput (bytesOf (stringValue (s.rlut.digits cs)) (outputLength bytes (ldefDec s.srcLen.toNat))) s)
          else .error (.raise .capacity 2 0)
      else .error (.raise .capacity 1 0) := by
  simp [decbufCommand, outputLength_eq, map_zeroExtend]

theorem decintCommand_eq (n : Nat) (s : State) :
    decintCommand n s =
      if s.srcLen.toNat ≤ n then
        scanSrc (decodeCheck s.rlut) s >>= fun cs =>
          accumulate (s.rlut.digits cs) 0 0 >>= fun acc => .ok { s with intOut := BitVec.ofNat Config.intW acc }
      else .error (.raise .capacity 1 0) := by
  simp [decintCommand]

/-! ## The accumulation of DECINT -/

/-- A completed accumulation is the value, and fits. -/
theorem accumulate_ok {ds : List Digit} {k acc v : Nat} (ha : acc < 2 ^ Config.intW) :
    accumulate ds k acc = .ok v ↔ v = acc * 64 ^ ds.length + stringValue ds ∧ v < 2 ^ Config.intW := by
  induction ds generalizing k acc with
  | nil =>
    simp only [accumulate, Except.ok.injEq, List.length_nil, Nat.pow_zero, Nat.mul_one, stringValue_nil, Nat.add_zero]
    constructor
    · rintro rfl
      exact ⟨rfl, ha⟩
    · rintro ⟨rfl, -⟩
      rfl
  | cons d ds ih =>
    have value : (acc * 64 + d.toNat) * 64 ^ ds.length + stringValue ds =
        acc * 64 ^ (d :: ds).length + stringValue (d :: ds) := by
      rw [stringValue_cons, List.length_cons, Nat.pow_succ]
      ring
    simp only [accumulate]
    split
    · rename_i h
      simp only [reduceCtorEq, false_iff, not_and, not_lt]
      rintro rfl
      rw [← value]
      calc 2 ^ Config.intW ≤ (acc * 64 + d.toNat) * 1 := by simpa using h
        _ ≤ (acc * 64 + d.toNat) * 64 ^ ds.length := Nat.mul_le_mul_left _ (Nat.pow_pos (by decide))
        _ ≤ _ := Nat.le_add_right _ _
    · rename_i h
      rw [ih (by omega), value]

/-- An accumulation that stops raises E_OVERFLOW at the first index where the value reaches `2**INT_W`. -/
theorem accumulate_error {ds : List Digit} {k acc : Nat} {stop : Stop} :
    accumulate ds k acc = .error stop ↔
      ∃ j, j < ds.length ∧ stop = .raise .overflow 0 (k + j) ∧
        2 ^ Config.intW ≤ acc * 64 ^ (j + 1) + stringValue (ds.take (j + 1)) ∧
        ∀ i, i < j → acc * 64 ^ (i + 1) + stringValue (ds.take (i + 1)) < 2 ^ Config.intW := by
  induction ds generalizing k acc with
  | nil => simp [accumulate]
  | cons d ds ih =>
    have value (j : Nat) (hj : j < ds.length) : (acc * 64 + d.toNat) * 64 ^ (j + 1) + stringValue (ds.take (j + 1)) =
        acc * 64 ^ (j + 1 + 1) + stringValue ((d :: ds).take (j + 1 + 1)) := by
      rw [List.take_succ_cons, stringValue_cons, List.length_take, show min (j + 1) ds.length = j + 1 by omega,
        Nat.pow_succ 64 (j + 1)]
      ring
    have first : acc * 64 ^ (0 + 1) + stringValue ((d :: ds).take (0 + 1)) = acc * 64 + d.toNat := by
      simp [stringValue_cons]
    simp only [accumulate]
    split
    · rename_i h
      constructor
      · rintro ⟨⟩
        exact ⟨0, by simp, rfl, by rw [first]; exact h, by simp⟩
      · rintro ⟨j, hj, rfl, -, hlow⟩
        cases j with
        | zero => rfl
        | succ j =>
          have := hlow 0 (Nat.succ_pos j)
          rw [first] at this
          omega
    · rename_i h
      rw [ih]
      constructor
      · rintro ⟨j, hj, rfl, hhigh, hlow⟩
        refine ⟨j + 1, by simpa using hj, by rw [Nat.add_right_comm, Nat.add_assoc], by rwa [← value j hj], ?_⟩
        intro i hi
        cases i with
        | zero => rw [first]; omega
        | succ i => rw [← value i (by omega)]; exact hlow i (by omega)
      · rintro ⟨j, hj, rfl, hhigh, hlow⟩
        cases j with
        | zero => rw [first] at hhigh; omega
        | succ j =>
          have hj : j < ds.length := by simpa using hj
          refine ⟨j, hj, by rw [Nat.add_right_comm, Nat.add_assoc], by rwa [value j hj], fun i hi => ?_⟩
          rw [value i (by omega)]
          exact hlow (i + 1) (by omega)

/-! ## Forward: what a command answers when its operands are in place -/

theorem execLdalpha_of_holds {s : State} {cs : List Cell} (h : s.srcHolds cs) (hl : cs.length = 64) (hd : cs.Nodup) :
    execLdalpha s = .next (complete (loadCodec (Alphabet.ofCells cs) s)) := by
  have hs : s.srcLen.toNat = 64 := h.1.trans hl
  rw [execLdalpha, ldalphaCommand_eq, if_pos (hs ▸ Config.nbuf_ge), if_pos hs,
    scanSrc_ok_of_holds h ((repeatCheck_none_iff_nodup cs).mpr hd)]
  rfl

theorem execEncbuf_of_holds {s : State} {cs : List Cell} {len : Option Nat} (h : s.srcHolds cs)
    (hn : cs.length ≤ Config.nbuf) (ho : outputLength len (ldefBuf cs.length) ≤ Config.nbuf) :
    execEncbuf len s = .next (complete (writeOutput
      (s.lut.chars (digitsOf (bufferValue cs) (outputLength len (ldefBuf cs.length)))) s)) := by
  rw [execEncbuf, encbufCommand_eq, h.1, if_pos hn, scanSrc_ok_of_holds h (by simp), ok_bind, if_pos ho]
  rfl

theorem execEncint_of_fits {s : State} {len : Option Nat}
    (ho : outputLength len (ldefInt s.intIn.toNat) ≤ Config.nbuf) (hf : ∀ n, len = some n → s.intIn.toNat < 64 ^ n) :
    execEncint len s = .next (complete (writeOutput
      (s.lut.chars (digitsOf s.intIn.toNat (outputLength len (ldefInt s.intIn.toNat)))) s)) := by
  have fits : requireFits len s.intIn.toNat = .ok () := by
    cases len with
    | none => rfl
    | some n => simp [requireFits, require, hf n rfl]
  rw [execEncint, encintCommand_eq, if_pos ho, fits]
  rfl

theorem execDecbuf_of_holds {s : State} {cs : List Cell} {bytes : Option Nat} (h : s.srcHolds cs)
    (hn : cs.length ≤ Config.nbuf) (hv : ∀ c ∈ cs, (s.rlut.entry c).valid = true)
    (ho : outputLength bytes (ldefDec cs.length) ≤ Config.nbuf) :
    execDecbuf bytes s = .next (complete (writeOutput
      (bytesOf (stringValue (s.rlut.digits cs)) (outputLength bytes (ldefDec cs.length))) s)) := by
  rw [execDecbuf, decbufCommand_eq, h.1, if_pos hn,
    scanSrc_ok_of_holds h fun k hk => decodeCheck_eq_none.mpr (hv _ (List.getElem_mem hk)), ok_bind, if_pos ho]
  rfl

theorem execDecint_of_holds {s : State} {cs : List Cell} (h : s.srcHolds cs) (hn : cs.length ≤ Config.nbuf)
    (hv : ∀ c ∈ cs, (s.rlut.entry c).valid = true) (hf : stringValue (s.rlut.digits cs) < 2 ^ Config.intW) :
    execDecint s = .next (complete
      { s with intOut := BitVec.ofNat Config.intW (stringValue (s.rlut.digits cs)) }) := by
  rw [execDecint, decintCommand_eq, h.1, if_pos hn,
    scanSrc_ok_of_holds h fun k hk => decodeCheck_eq_none.mpr (hv _ (List.getElem_mem hk)), ok_bind,
    (accumulate_ok (by decide)).mpr ⟨by simp, hf⟩]
  rfl

/-! ## Backward: everything a command can answer -/

/-- An error that a scan raises has its index below SRC_LEN. -/
theorem scanSrc_raise_cases {check : List Cell → Nat → Cell → Option Stop} {s : State} {stop : Stop}
    (h : scanSrc check s = .error stop) :
    ∃ cs : List Cell, cs.length < s.srcLen.toNat ∧ (∀ k, k < cs.length → s.src.read k = cs[k]?) ∧
      (∀ k (h : k < cs.length), check (cs.take k).reverse k cs[k] = none) ∧
      ((s.src.read cs.length = none ∧ stop = .unwritten cs.length) ∨
        ∃ c, s.src.read cs.length = some c ∧ check cs.reverse cs.length c = some stop) := by
  obtain ⟨cs, hl, hp, hend⟩ := scanCells_error.mp h
  have hp := passes_iff.mp hp
  refine ⟨cs, hl, fun k hk => ?_, fun k hk => ?_, by simpa using hend⟩
  · have := (hp k hk).1
    rw [Nat.zero_add] at this
    rw [this, List.getElem?_eq_getElem hk]
  · simpa using (hp k hk).2

/-- Everything LDALPHA can answer. -/
theorem execLdalpha_cases {s t : State} (h : execLdalpha s = .next t) :
    (Config.nbuf < s.srcLen.toNat ∧ t = raiseError .capacity 1 0 s) ∨
    (s.srcLen.toNat ≤ Config.nbuf ∧ s.srcLen.toNat ≠ 64 ∧ t = raiseError .alphabet 1 s.srcLen.toNat s) ∨
    (s.srcLen.toNat = 64 ∧ ∃ (cs : List Cell) (c : Cell), cs.length < 64 ∧
      (∀ k, k < cs.length → s.src.read k = cs[k]?) ∧ cs.Nodup ∧ s.src.read cs.length = some c ∧ c ∈ cs ∧
      t = raiseError .alphabet 2 cs.length s) ∨
    (∃ cs, s.srcHolds cs ∧ cs.length = 64 ∧ cs.Nodup ∧ t = complete (loadCodec (Alphabet.ofCells cs) s)) := by
  rw [execLdalpha, ldalphaCommand_eq] at h
  split at h
  · rename_i h1
    split at h
    · rename_i h2
      cases hs : scanSrc repeatCheck s with
      | error stop =>
        obtain ⟨cs, hl, hr, hc, hend⟩ := scanSrc_raise_cases hs
        rw [hs, error_bind] at h
        rcases hend with ⟨-, rfl⟩ | ⟨c, hread, hchk⟩
        · simp at h
        · unfold repeatCheck at hchk
          split at hchk
          · rename_i hm
            cases hchk
            simp only [endCommand_raise, Host.Outcome.next.injEq] at h
            exact .inr (.inr (.inl ⟨h2, cs, c, h2 ▸ hl, hr, (repeatCheck_none_iff_nodup cs).mp hc, hread,
              List.mem_reverse.mp hm, h.symm⟩))
          · cases hchk
      | ok cs =>
        obtain ⟨hh, hc⟩ := holds_of_scanSrc_ok hs
        rw [hs, ok_bind, endCommand_ok, Host.Outcome.next.injEq] at h
        exact .inr (.inr (.inr ⟨cs, hh, hh.1 ▸ h2, (repeatCheck_none_iff_nodup cs).mp hc, h.symm⟩))
    · rename_i h2
      simp only [endCommand_raise, Host.Outcome.next.injEq] at h
      exact .inr (.inl ⟨h1, h2, h.symm⟩)
  · rename_i h1
    simp only [endCommand_raise, Host.Outcome.next.injEq] at h
    exact .inl ⟨Nat.lt_of_not_le h1, h.symm⟩

/-- Everything ENCBUF can answer. -/
theorem execEncbuf_cases {s t : State} {len : Option Nat} (h : execEncbuf len s = .next t) :
    (Config.nbuf < s.srcLen.toNat ∧ t = raiseError .capacity 1 0 s) ∨
    (∃ cs, s.srcHolds cs ∧ cs.length ≤ Config.nbuf ∧ Config.nbuf < outputLength len (ldefBuf cs.length) ∧
      t = raiseError .capacity 2 0 s) ∨
    (∃ cs, s.srcHolds cs ∧ cs.length ≤ Config.nbuf ∧ outputLength len (ldefBuf cs.length) ≤ Config.nbuf ∧
      t = complete (writeOutput
        (s.lut.chars (digitsOf (bufferValue cs) (outputLength len (ldefBuf cs.length)))) s)) := by
  rw [execEncbuf, encbufCommand_eq] at h
  split at h
  · rename_i h1
    cases hs : scanSrc byteCheck s with
    | error stop =>
      obtain ⟨cs, hl, hr, hc, hend⟩ := scanSrc_raise_cases hs
      rw [hs, error_bind] at h
      rcases hend with ⟨-, rfl⟩ | ⟨c, hread, hchk⟩
      · simp at h
      · simp at hchk
    | ok cs =>
      obtain ⟨hh, -⟩ := holds_of_scanSrc_ok hs
      rw [hs, ok_bind, hh.1] at h
      split at h
      · rename_i h2
        simp only [endCommand_ok, Host.Outcome.next.injEq] at h
        exact .inr (.inr ⟨cs, hh, hh.1 ▸ h1, h2, h.symm⟩)
      · rename_i h2
        simp only [endCommand_raise, Host.Outcome.next.injEq] at h
        exact .inr (.inl ⟨cs, hh, hh.1 ▸ h1, Nat.lt_of_not_le h2, h.symm⟩)
  · rename_i h1
    simp only [endCommand_raise, Host.Outcome.next.injEq] at h
    exact .inl ⟨Nat.lt_of_not_le h1, h.symm⟩

/-- Everything ENCINT can answer. -/
theorem execEncint_cases {s t : State} {len : Option Nat} (h : execEncint len s = .next t) :
    (Config.nbuf < outputLength len (ldefInt s.intIn.toNat) ∧ t = raiseError .capacity 2 0 s) ∨
    (∃ n, len = some n ∧ n ≤ Config.nbuf ∧ 64 ^ n ≤ s.intIn.toNat ∧ t = raiseError .bounds 0 0 s) ∨
    (outputLength len (ldefInt s.intIn.toNat) ≤ Config.nbuf ∧ (∀ n, len = some n → s.intIn.toNat < 64 ^ n) ∧
      t = complete (writeOutput
        (s.lut.chars (digitsOf s.intIn.toNat (outputLength len (ldefInt s.intIn.toNat)))) s)) := by
  by_cases h1 : outputLength len (ldefInt s.intIn.toNat) ≤ Config.nbuf
  · by_cases h2 : ∀ n, len = some n → s.intIn.toNat < 64 ^ n
    · rw [execEncint_of_fits h1 h2, Host.Outcome.next.injEq] at h
      exact .inr (.inr ⟨h1, h2, h.symm⟩)
    · simp only [not_forall, Nat.not_lt] at h2
      obtain ⟨n, rfl, h2⟩ := h2
      rw [execEncint, encintCommand_eq, if_pos h1, requireFits, require_bind, if_neg (Nat.not_lt.mpr h2),
        endCommand_raise, Host.Outcome.next.injEq] at h
      exact .inr (.inl ⟨n, rfl, h1, h2, h.symm⟩)
  · rw [execEncint, encintCommand_eq, if_neg h1, endCommand_raise, Host.Outcome.next.injEq] at h
    exact .inl ⟨Nat.lt_of_not_le h1, h.symm⟩

/-- What the scan of a decode command finds. -/
theorem scanSrc_decodeCheck_cases {s : State} {stop : Stop} (h : scanSrc (decodeCheck s.rlut) s = .error stop) :
    (∃ k, stop = .unwritten k) ∨
    ∃ (cs : List Cell) (c : Cell), cs.length < s.srcLen.toNat ∧ (∀ k, k < cs.length → s.src.read k = cs[k]?) ∧
      (∀ x ∈ cs, (s.rlut.entry x).valid = true) ∧ s.src.read cs.length = some c ∧ (s.rlut.entry c).valid = false ∧
      stop = .raise .decode 0 cs.length := by
  obtain ⟨cs, hl, hr, hc, hend⟩ := scanSrc_raise_cases h
  rcases hend with ⟨-, rfl⟩ | ⟨c, hread, hchk⟩
  · exact .inl ⟨_, rfl⟩
  · refine .inr ⟨cs, c, hl, hr, fun x hx => ?_, hread, ?_, ?_⟩
    · obtain ⟨k, hk, rfl⟩ := List.mem_iff_getElem.mp hx
      exact decodeCheck_eq_none.mp (hc k hk)
    · unfold decodeCheck at hchk
      split at hchk
      · cases hchk
      · rename_i hv
        exact Bool.eq_false_iff.mpr hv
    · unfold decodeCheck at hchk
      split at hchk
      · cases hchk
      · exact (Option.some.inj hchk).symm

theorem valid_of_scanSrc_ok {s : State} {cs : List Cell} (h : scanSrc (decodeCheck s.rlut) s = .ok cs) :
    s.srcHolds cs ∧ ∀ x ∈ cs, (s.rlut.entry x).valid = true := by
  obtain ⟨hh, hc⟩ := holds_of_scanSrc_ok h
  refine ⟨hh, fun x hx => ?_⟩
  obtain ⟨k, hk, rfl⟩ := List.mem_iff_getElem.mp hx
  exact decodeCheck_eq_none.mp (hc k hk)

/-- Everything DECBUF can answer. -/
theorem execDecbuf_cases {s t : State} {bytes : Option Nat} (h : execDecbuf bytes s = .next t) :
    (Config.nbuf < s.srcLen.toNat ∧ t = raiseError .capacity 1 0 s) ∨
    (s.srcLen.toNat ≤ Config.nbuf ∧ ∃ (cs : List Cell) (c : Cell), cs.length < s.srcLen.toNat ∧
      (∀ k, k < cs.length → s.src.read k = cs[k]?) ∧ (∀ x ∈ cs, (s.rlut.entry x).valid = true) ∧
      s.src.read cs.length = some c ∧ (s.rlut.entry c).valid = false ∧ t = raiseError .decode 0 cs.length s) ∨
    (∃ cs, s.srcHolds cs ∧ cs.length ≤ Config.nbuf ∧ (∀ x ∈ cs, (s.rlut.entry x).valid = true) ∧
      Config.nbuf < outputLength bytes (ldefDec cs.length) ∧ t = raiseError .capacity 2 0 s) ∨
    (∃ cs, s.srcHolds cs ∧ cs.length ≤ Config.nbuf ∧ (∀ x ∈ cs, (s.rlut.entry x).valid = true) ∧
      outputLength bytes (ldefDec cs.length) ≤ Config.nbuf ∧
      t = complete (writeOutput
        (bytesOf (stringValue (s.rlut.digits cs)) (outputLength bytes (ldefDec cs.length))) s)) := by
  rw [execDecbuf, decbufCommand_eq] at h
  split at h
  · rename_i h1
    cases hs : scanSrc (decodeCheck s.rlut) s with
    | error stop =>
      rw [hs, error_bind] at h
      rcases scanSrc_decodeCheck_cases hs with ⟨k, rfl⟩ | ⟨cs, c, hl, hr, hv, hread, hbad, rfl⟩
      · simp at h
      · simp only [endCommand_raise, Host.Outcome.next.injEq] at h
        exact .inr (.inl ⟨h1, cs, c, hl, hr, hv, hread, hbad, h.symm⟩)
    | ok cs =>
      obtain ⟨hh, hv⟩ := valid_of_scanSrc_ok hs
      rw [hs, ok_bind, hh.1] at h
      split at h
      · rename_i h2
        simp only [endCommand_ok, Host.Outcome.next.injEq] at h
        exact .inr (.inr (.inr ⟨cs, hh, hh.1 ▸ h1, hv, h2, h.symm⟩))
      · rename_i h2
        simp only [endCommand_raise, Host.Outcome.next.injEq] at h
        exact .inr (.inr (.inl ⟨cs, hh, hh.1 ▸ h1, hv, Nat.lt_of_not_le h2, h.symm⟩))
  · rename_i h1
    simp only [endCommand_raise, Host.Outcome.next.injEq] at h
    exact .inl ⟨Nat.lt_of_not_le h1, h.symm⟩

/-- Everything DECINT can answer. -/
theorem execDecint_cases {s t : State} (h : execDecint s = .next t) :
    (Config.nbuf < s.srcLen.toNat ∧ t = raiseError .capacity 1 0 s) ∨
    (s.srcLen.toNat ≤ Config.nbuf ∧ ∃ (cs : List Cell) (c : Cell), cs.length < s.srcLen.toNat ∧
      (∀ k, k < cs.length → s.src.read k = cs[k]?) ∧ (∀ x ∈ cs, (s.rlut.entry x).valid = true) ∧
      s.src.read cs.length = some c ∧ (s.rlut.entry c).valid = false ∧ t = raiseError .decode 0 cs.length s) ∨
    (∃ (cs : List Cell) (k : Nat), s.srcHolds cs ∧ cs.length ≤ Config.nbuf ∧
      (∀ x ∈ cs, (s.rlut.entry x).valid = true) ∧ k < cs.length ∧
      2 ^ Config.intW ≤ stringValue (s.rlut.digits (cs.take (k + 1))) ∧
      (∀ i, i < k → stringValue (s.rlut.digits (cs.take (i + 1))) < 2 ^ Config.intW) ∧
      t = raiseError .overflow 0 k s) ∨
    (∃ cs, s.srcHolds cs ∧ cs.length ≤ Config.nbuf ∧ (∀ x ∈ cs, (s.rlut.entry x).valid = true) ∧
      stringValue (s.rlut.digits cs) < 2 ^ Config.intW ∧
      t = complete { s with intOut := BitVec.ofNat Config.intW (stringValue (s.rlut.digits cs)) }) := by
  rw [execDecint, decintCommand_eq] at h
  split at h
  · rename_i h1
    cases hs : scanSrc (decodeCheck s.rlut) s with
    | error stop =>
      rw [hs, error_bind] at h
      rcases scanSrc_decodeCheck_cases hs with ⟨k, rfl⟩ | ⟨cs, c, hl, hr, hv, hread, hbad, rfl⟩
      · simp at h
      · simp only [endCommand_raise, Host.Outcome.next.injEq] at h
        exact .inr (.inl ⟨h1, cs, c, hl, hr, hv, hread, hbad, h.symm⟩)
    | ok cs =>
      obtain ⟨hh, hv⟩ := valid_of_scanSrc_ok hs
      rw [hs, ok_bind] at h
      cases ha : accumulate (s.rlut.digits cs) 0 0 with
      | error stop =>
        obtain ⟨j, hj, rfl, hhigh, hlow⟩ := accumulate_error.mp ha
        rw [ha, error_bind, endCommand_raise, Host.Outcome.next.injEq] at h
        have take (i : Nat) : (s.rlut.digits cs).take i = s.rlut.digits (cs.take i) := by
          simp [ReverseMap.digits, List.map_take]
        simp only [Nat.zero_mul, Nat.zero_add, take] at hhigh hlow h
        exact .inr (.inr (.inl ⟨cs, j, hh, hh.1 ▸ h1, hv, by simpa using hj, hhigh, hlow, h.symm⟩))
      | ok v =>
        obtain ⟨hval, hfit⟩ := (accumulate_ok (by decide)).mp ha
        rw [Nat.zero_mul, Nat.zero_add] at hval
        subst hval
        rw [ha, ok_bind, endCommand_ok, Host.Outcome.next.injEq] at h
        exact .inr (.inr (.inr ⟨cs, hh, hh.1 ▸ h1, hv, hfit, h.symm⟩))
  · rename_i h1
    simp only [endCommand_raise, Host.Outcome.next.injEq] at h
    exact .inl ⟨Nat.lt_of_not_le h1, h.symm⟩

/-- The forms of a command's next state: a failure, a construction, an output in DST, or an integer. -/
inductive CommandEnd (i : Instr) (s : State) : State → Prop where
  | failed (e : ErrCode) (sub : BitVec 4) (pos : Nat) (hpos : pos < 2 ^ 24) : CommandEnd i s (raiseError e sub pos s)
  | constructed (lut : Alphabet) (hi : i = .ldalpha ∨ i = .lddef)
      (hd : ∀ d e, lut.char d = lut.char e → d = e) : CommandEnd i s (complete (loadCodec lut s))
  | output (out : List Cell) (hi : ∃ len, i = .encbuf len ∨ i = .encint len ∨ i = .decbuf len)
      (hl : out.length ≤ Config.nbuf) : CommandEnd i s (complete (writeOutput out s))
  | integer (v : IntWord) (hi : i = .decint) : CommandEnd i s (complete { s with intOut := v })

/-- Everything a command can do to the state. -/
theorem exec_next {i : Instr} {s t : State} (h : exec i s = .next t) : CommandEnd i s t := by
  have small : s.srcLen.toNat < 2 ^ 24 := s.srcLen.isLt
  cases i with
  | ldalpha =>
    rcases execLdalpha_cases h with ⟨-, rfl⟩ | ⟨-, -, rfl⟩ | ⟨hs, cs, c, hl, -, -, -, -, rfl⟩ | ⟨cs, hh, hl, hd, rfl⟩
    · exact .failed _ _ _ (by decide)
    · exact .failed _ _ _ small
    · exact .failed _ _ _ (by omega)
    · exact .constructed _ (.inl rfl) (Alphabet.ofCells_distinct hl hd)
  | lddef =>
    cases h
    exact .constructed _ (.inr rfl) defaultAlphabet_increasing.distinct
  | encbuf len =>
    rcases execEncbuf_cases h with ⟨-, rfl⟩ | ⟨cs, -, -, -, rfl⟩ | ⟨cs, -, -, ho, rfl⟩
    · exact .failed _ _ _ (by decide)
    · exact .failed _ _ _ (by decide)
    · exact .output _ ⟨len, .inl rfl⟩ (by simpa using ho)
  | encint len =>
    rcases execEncint_cases h with ⟨-, rfl⟩ | ⟨n, -, -, -, rfl⟩ | ⟨ho, -, rfl⟩
    · exact .failed _ _ _ (by decide)
    · exact .failed _ _ _ (by decide)
    · exact .output _ ⟨len, .inr (.inl rfl)⟩ (by simpa using ho)
  | decbuf bytes =>
    rcases execDecbuf_cases h with ⟨-, rfl⟩ | ⟨-, cs, c, hl, -, -, -, -, rfl⟩ | ⟨cs, -, -, -, -, rfl⟩ |
      ⟨cs, -, -, -, ho, rfl⟩
    · exact .failed _ _ _ (by decide)
    · exact .failed _ _ _ (by omega)
    · exact .failed _ _ _ (by decide)
    · exact .output _ ⟨bytes, .inr (.inr rfl)⟩ (by simpa using ho)
  | decint =>
    rcases execDecint_cases h with ⟨-, rfl⟩ | ⟨-, cs, c, hl, -, -, -, -, rfl⟩ | ⟨cs, k, hh, -, -, hk, -, -, rfl⟩ |
      ⟨cs, -, -, -, -, rfl⟩
    · exact .failed _ _ _ (by decide)
    · exact .failed _ _ _ (by omega)
    · exact .failed _ _ _ (by have := hh.1; omega)
    · exact .integer _ rfl

end Sys2Proof.Machine
end

