-- ==== Sys2Proof/Laws/Decode.lean ====
section
/-! SUPPORT. The fields of a command word and of an encoded command. -/

namespace Sys2Proof

open Machine

@[simp] theorem opField_encode (i : Instr) : opField (encode i) = opNumber i :=
  (extract_append_low (lenOperand i) (0#4 ++ opNumber i) 0 4 (by decide)).trans
    ((extract_append_low 0#4 (opNumber i) 0 4 (by decide)).trans (extract_whole _))

@[simp] theorem rsvField_encode (i : Instr) : rsvField (encode i) = 0 :=
  (extract_append_low (lenOperand i) (0#4 ++ opNumber i) 4 4 (by decide)).trans
    ((extract_append_high 0#4 (opNumber i) 0 4).trans (extract_whole 0#4))

@[simp] theorem lenField_encode (i : Instr) : lenField (encode i) = lenOperand i :=
  (extract_append_high (lenOperand i) (0#4 ++ opNumber i) 0 24).trans (extract_whole _)

/-- A word is its three fields (30_encoding.md R70). -/
theorem word_toNat (w : Word) :
    w.toNat = (lenField w).toNat * 256 + (rsvField w).toNat * 16 + (opField w).toNat := by
  have := w.isLt
  simp only [lenField, rsvField, opField, BitVec.extractLsb'_toNat, Nat.shiftRight_eq_div_pow]
  omega

/-- Words with equal fields are equal. -/
theorem word_ext {v w : Word} (ho : opField v = opField w) (hr : rsvField v = rsvField w)
    (hl : lenField v = lenField w) : v = w :=
  BitVec.eq_of_toNat_eq (by rw [word_toNat v, word_toNat w, ho, hr, hl])

end Sys2Proof
end

