-- ==== Sys2Proof/Laws/PerInstr.lean ====
section
/-! SUPPORT. Families of statements with one lemma per command. -/

namespace Sys2Proof.Laws.EncodingFields

/-- The word of a command holds the command's number in OP, 0 in RSV and its length operand, 0 if it has none, in LEN
(30_encoding.md R70, R71, R74, R75). -/
def Statement (i : Instr) : Prop :=
  opField (encode i) = opNumber i ∧ rsvField (encode i) = 0 ∧ lenField (encode i) = lenOperand i

theorem ldalpha : Statement .ldalpha := ⟨opField_encode _, rsvField_encode _, lenField_encode _⟩

theorem lddef : Statement .lddef := ⟨opField_encode _, rsvField_encode _, lenField_encode _⟩

theorem encbuf (len : Option Nat) : Statement (.encbuf len) :=
  ⟨opField_encode _, rsvField_encode _, lenField_encode _⟩

theorem encint (len : Option Nat) : Statement (.encint len) :=
  ⟨opField_encode _, rsvField_encode _, lenField_encode _⟩

theorem decbuf (bytes : Option Nat) : Statement (.decbuf bytes) :=
  ⟨opField_encode _, rsvField_encode _, lenField_encode _⟩

theorem decint : Statement .decint := ⟨opField_encode _, rsvField_encode _, lenField_encode _⟩

end Sys2Proof.Laws.EncodingFields
end

