-- ==== Sys2Proof/Tests/Slice0.lean ====
section
/-! SUPPORT. The model's own tests: ill-formed terms, words written out from the encoding, single steps with the results
of spec/95_test_vectors.md, and a witness for the hypotheses of each statement. -/

namespace Sys2Proof.Tests

open Sys2Proof.Machine

/-! ## Small states -/

/-- The state after reset, with `cs` written to SRC and SRC_LEN set to its length. -/
def onSrc (cs : List Cell) : State :=
  { State.reset with src := Memory.writeList [] 0 cs, srcLen := BitVec.ofNat 24 cs.length }

/-- The state after reset, with `cs` as the last output. -/
def onDst (cs : List Cell) : State :=
  { State.reset with dst := Memory.writeList [] 0 cs, outLen := BitVec.ofNat 24 cs.length }

/-- The outcome is a next state of which `p` holds. -/
def after (o : Host.Outcome State Fault Refusal) (p : State → Bool) : Bool :=
  match o with
  | .next t => p t
  | .fault _ => false
  | .refused _ => false

/-- The state has the given code and ERR_INFO. -/
def ended (code info : Nat) (t : State) : Bool := (statusCode t.status).toNat == code && t.errInfo.toNat == info

/-- DST reads as `cs`, and OUT_LEN is its length. -/
def output (cs : List Cell) (t : State) : Bool := t.output == some cs

theorem exists_of_after {o : Host.Outcome State Fault Refusal} {p : State → Bool} (h : after o p = true) :
    ∃ t, o = .next t ∧ p t = true := by
  cases o with
  | next t => exact ⟨t, rfl, h⟩
  | fault f => cases h
  | refused r => cases h

theorem onSrc_holds (cs : List Cell) (h : cs.length < 2 ^ 24) : (onSrc cs).srcHolds cs := by
  refine ⟨?_, fun k hk => ?_⟩
  · simp only [onSrc, BitVec.toNat_ofNat]
    exact Nat.mod_eq_of_lt h
  · simp [onSrc, Memory.read_writeList_zero, hk]

theorem onDst_holds (cs : List Cell) (h : cs.length < 2 ^ 24) : (onDst cs).dstHolds cs := by
  refine ⟨?_, fun k hk => ?_⟩
  · simp only [onDst, BitVec.toNat_ofNat]
    exact Nat.mod_eq_of_lt h
  · simp [onDst, Memory.read_writeList_zero, hk]

theorem le_nbuf {n : Nat} (h : n ≤ 64) : n ≤ Config.nbuf := h.trans Config.nbuf_ge

/-! ## Ill-formed terms (30_encoding.md R73, R74) -/

theorem test_wf_encbuf_zero : Instr.wf (.encbuf (some 0)) = false := by decide
theorem test_wf_encbuf_wide : Instr.wf (.encbuf (some (2 ^ 24))) = false := by decide
theorem test_wf_encint_zero : Instr.wf (.encint (some 0)) = false := by decide
theorem test_wf_encint_wide : Instr.wf (.encint (some (2 ^ 24))) = false := by decide
theorem test_wf_decbuf_zero : Instr.wf (.decbuf (some 0)) = false := by decide
theorem test_wf_decbuf_wide : Instr.wf (.decbuf (some (2 ^ 24))) = false := by decide
theorem test_wf_decbuf_largest : Instr.wf (.decbuf (some (2 ^ 24 - 1))) = true := by decide

/-! ## Words written out from 30_encoding.md R70, R71: LEN, RSV, OP -/

theorem test_word_ldalpha : decode 0b000000000000000000000000_0000_0001#32 = .ok .ldalpha := by decide
theorem test_word_lddef : decode 0b000000000000000000000000_0000_0010#32 = .ok .lddef := by decide
theorem test_word_encbuf : decode 0b000000000000000000000000_0000_0011#32 = .ok (.encbuf none) := by decide
theorem test_word_encbuf_len : decode 0b100000000000000000000001_0000_0011#32 = .ok (.encbuf (some 0x800001)) := by
  decide
theorem test_word_encint : decode 0b000000000000000000000100_0000_0100#32 = .ok (.encint (some 4)) := by decide
theorem test_word_decbuf : decode 0b000000000000000000000011_0000_0101#32 = .ok (.decbuf (some 3)) := by decide
theorem test_word_decint : decode 0b000000000000000000000000_0000_0110#32 = .ok .decint := by decide
theorem test_word_zero : decode 0b000000000000000000000000_0000_0000#32 = .error .opcode := by decide
theorem test_word_seven : decode 0b000000000000000000000000_0000_0111#32 = .error .opcode := by decide
theorem test_word_reserved : decode 0b000000000000000000000000_0001_0011#32 = .error .reserved := by decide
theorem test_word_length : decode 0b111111111111111111111111_0000_0110#32 = .error .length := by decide

/-! ## Single steps, with the results of spec/95_test_vectors.md -/

/-- L1-6c: a repeat at index 40. -/
theorem test_ldalpha_repeat :
    after (step ((onSrc (defaultAlphabet.toList.set 40 0x41)).withFetchWord 32 0x1)) (ended 1 0x02000028) = true := by
  decide +kernel

/-- C9: codes outside ASCII, in the order supplied. -/
theorem test_ldalpha_high :
    after (step ((onSrc ((List.range 64).map fun k => BitVec.ofNat 8 (0xC0 + k))).withFetchWord 32 0x1))
      (fun t => ended 0 0 t && t.lut.char 5 == 0xC5 && t.rlut.entry 0xFF == ⟨true, 63⟩ &&
        t.rlut.entry 0x2D == ⟨false, 0⟩) = true := by
  decide +kernel

/-- C10: the default codec comes back. -/
theorem test_lddef :
    after (step (({ State.reset with lut := Vector.replicate 64 0, rlut := ReverseMap.cleared }).withFetchWord 32 0x2))
      (fun t => ended 0 0 t && t.lut.char 0 == 0x2D && t.rlut.entry 0x7A == ⟨true, 63⟩) = true := by
  decide +kernel

/-- E14: `12 34 56` is "3YGL". -/
theorem test_encbuf_default :
    after (step ((onSrc [0x12, 0x34, 0x56]).withFetchWord 32 0x3))
      (fun t => ended 0 0 t && output [0x33, 0x59, 0x47, 0x4C] t) = true := by
  decide +kernel

/-- E17: truncation keeps "Qvj". -/
theorem test_encbuf_short :
    after (step ((onSrc [0xDE, 0xAD, 0xBE, 0xEF]).withFetchWord 32 0x303))
      (fun t => ended 0 0 t && output [0x51, 0x76, 0x6A] t) = true := by
  decide +kernel

/-- I18: 128 is a power of two and takes three digits, "-1-". -/
theorem test_encint_power :
    after (step (({ State.reset with intIn := 128 }).withFetchWord 32 0x4))
      (fun t => ended 0 0 t && output [0x2D, 0x31, 0x2D] t) = true := by
  decide +kernel

/-- I14: 64 does not fit one digit. -/
theorem test_encint_bounds :
    after (step (({ State.reset with intIn := 64 }).withFetchWord 32 0x104))
      (fun t => ended 2 0 t && statusSticky t.status == 1 && output [] t) = true := by
  decide +kernel

/-- D20: "zz" in four bytes is `00 00 0F FF`. -/
theorem test_decbuf_fill :
    after (step ((onSrc [0x7A, 0x7A]).withFetchWord 32 0x405))
      (fun t => ended 0 0 t && output [0x00, 0x00, 0x0F, 0xFF] t) = true := by
  decide +kernel

/-- D21: "a?" has an invalid character at index 1. -/
theorem test_decbuf_invalid : after (step ((onSrc [0x61, 0x3F]).withFetchWord 32 0x5)) (ended 3 1) = true := by
  decide +kernel

/-- N1: "0-" is 64. -/
theorem test_decint :
    after (step ((onSrc [0x30, 0x2D]).withFetchWord 32 0x6)) (fun t => ended 0 0 t && t.intOut == 64) = true := by
  decide +kernel

/-- N14: "V--------" overflows at its last character. -/
theorem test_decint_overflow :
    after (step ((onSrc (0x56 :: List.replicate 8 0x2D)).withFetchWord 32 0x6)) (ended 4 8) = true := by
  decide +kernel

/-- X1: the word 0 is illegal. -/
theorem test_illegal : after (step (State.reset.withFetchWord 32 0x0)) (ended 6 0) = true := by decide +kernel

/-- C6, E25, D24, N19: with NBUF = 4096, an input of 4097 cells exceeds the capacity and no cell is read. -/
theorem test_capacity_input :
    after (endCommand { State.reset with srcLen := 4097 } (ldalphaCommand 4096 { State.reset with srcLen := 4097 }))
        (ended 5 0x01000000) &&
      after (endCommand { State.reset with srcLen := 4097 } (encbufCommand 4096 none { State.reset with srcLen := 4097 }))
        (ended 5 0x01000000) &&
      after (endCommand { State.reset with srcLen := 4097 } (decbufCommand 4096 none { State.reset with srcLen := 4097 }))
        (ended 5 0x01000000) &&
      after (endCommand { State.reset with srcLen := 4097 } (decintCommand 4096 { State.reset with srcLen := 4097 }))
        (ended 5 0x01000000) = true := by
  decide +kernel

/-- E26, I36, D25, D23: with NBUF = 4096, an output of 4097 cells exceeds the capacity; ENCINT reports it before
E_BOUNDS, DECBUF after an invalid character. -/
theorem test_capacity_output :
    after (endCommand (onSrc [1, 2]) (encbufCommand 4096 (some 4097) (onSrc [1, 2]))) (ended 5 0x02000000) &&
      after (endCommand { State.reset with intIn := 9007199254740991 }
        (encintCommand 4096 (some 4097) { State.reset with intIn := 9007199254740991 })) (ended 5 0x02000000) &&
      after (endCommand (onSrc [0x7A, 0x7A]) (decbufCommand 4096 (some 4097) (onSrc [0x7A, 0x7A])))
        (ended 5 0x02000000) &&
      after (endCommand (onSrc [0x3F]) (decbufCommand 4096 (some 4097) (onSrc [0x3F]))) (ended 3 0) = true := by
  decide +kernel

/-- The datapaths on E15 and D10: `12 34 56 78` and the digits of "-HC4Os". -/
theorem test_datapaths :
    grouperDigits [0x12, 0x34, 0x56, 0x78] 6 = [0, 18, 13, 5, 25, 56] ∧
      unpackerBytes [0, 18, 13, 5, 25, 56] 4 = [0x12, 0x34, 0x56, 0x78] ∧ extractorDigits 64 2 = [1, 0] := by
  decide +kernel

/-- 30_encoding.md R80: case, hexadecimal, a comment, and the errors. -/
theorem test_assembler :
    assembleLine "EncBuf 0x10 ; sixteen".toList = .word 0x1003 ∧ assembleLine "ENCBUF 0".toList = .error ∧
      assembleLine "DECINT 1".toList = .error ∧ assembleLine "NOP".toList = .error ∧
      assembleLine "; nothing".toList = .nothing ∧ assembleLine ".word 0xFFFFFFFF".toList = .word 0xFFFFFFFF ∧
      assembleLine "decodeToBuffer 3".toList = .word 0x305 := by
  decide +kernel

/-! ## Witnesses: every statement's hypotheses can be met, clause by clause -/

theorem witness_EveryWordDecodesByItsFields :
    illegalFields 0 0 0 ∧ illegalFields 7 0 0 ∧ illegalFields 15 15 (2 ^ 24 - 1) ∧ illegalFields 3 1 0 ∧
      illegalFields 1 0 1 ∧ illegalFields 2 0 1 ∧ illegalFields 6 0 (2 ^ 24 - 1) ∧ ¬ illegalFields 1 0 0 ∧
      ¬ illegalFields 2 0 0 ∧ ¬ illegalFields 3 0 0 ∧ ¬ illegalFields 4 0 1 ∧ ¬ illegalFields 5 0 (2 ^ 24 - 1) ∧
      ¬ illegalFields 6 0 0 := by
  simp [illegalFields]

theorem witness_DecodeOfEncodeIsTheCommand :
    Instr.wf .ldalpha = true ∧ Instr.wf (.encbuf none) = true ∧ Instr.wf (.encint (some 1)) = true ∧
      Instr.wf (.decbuf (some (2 ^ 24 - 1))) = true := by
  decide

theorem witness_EncodeOfDecodeIsTheWord :
    decode 0xFFFFFF03 = .ok (.encbuf (some 0xFFFFFF)) ∧ decode 0x6 = .ok .decint := by decide

theorem witness_StepRunsTheDecodedCommand :
    (State.reset.withFetchWord 32 0x404).host = .issue 0x404 :: [] ∧ decode 0x404 = .ok (.encint (some 4)) ∧
      decodeTableWord 32 0x404 = some (.encint (some 4)) := by
  decide

theorem witness_CoreWaitsForTheHost : State.reset.host = [] := rfl

theorem witness_IllegalWordsCompleteWithIllegal :
    illegalFields 0 0 0 ∧ ¬ illegalFields 3 0 5 ∧
      ({ State.reset with host := [.issue (wordOfFields 0 0 0)] } : State).host = .issue (wordOfFields 0 0 0) :: [] := by
  unfold illegalFields
  decide

/-- The last cell, the widest value, and a state that holds the action: as for every action, `{ s with host := … }`. -/
theorem witness_HostWritesDoAsTabled :
    Config.nbuf - 1 < Config.nbuf ∧ (255 : Nat) < 2 ^ 8 ∧ (2 ^ 24 - 1 : Nat) < 2 ^ 24 ∧ (2 ^ 53 - 1 : Nat) < 2 ^ 53 ∧
      ({ State.reset with host := [.writeSrc (Config.nbuf - 1) 255] } : State).host =
        [.writeSrc (Config.nbuf - 1) 255] :=
  ⟨Nat.sub_lt (lt_of_lt_of_le (by decide) Config.nbuf_ge) (by decide), by decide, by decide, by decide, rfl⟩

theorem witness_HostReadsReturnTheValue :
    (onSrc [0x2D]).src.read 0 = some 0x2D ∧ (onDst [0x7A]).dst.read 0 = some 0x7A ∧
      (onSrc [0x2D]).src.read 1 = none ∧ (onDst [0x7A]).dst.read 1 = none ∧ 1 < Config.nbuf ∧
      ({ onSrc [0x2D] with host := [.readSrc 0] } : State).host = [.readSrc 0] :=
  ⟨by decide, by decide, by decide, by decide, lt_of_lt_of_le (by decide) Config.nbuf_ge, rfl⟩

theorem witness_OtherHostActionsAreRefused :
    Config.nbuf ≤ Config.nbuf ∧ (2 : Nat) ^ 8 ≤ 256 ∧ (2 : Nat) ^ 24 ≤ 16777216 ∧ (2 : Nat) ^ 53 ≤ 9007199254740992 ∧
      Reg.status ≠ .srcLen ∧ Reg.status ≠ .intIn ∧
      ({ State.reset with host := [.readSrc Config.nbuf] } : State).host = [.readSrc Config.nbuf] :=
  ⟨le_refl _, by decide, by decide, by decide, by decide, by decide, rfl⟩

theorem witness_ReadsAndRepeatedCommandsChangeNothing :
    (∃ t, step { State.reset with host := [.readReg .status] } = .next t) ∧
      (∃ t, exec (.encbuf none) (onSrc [0x12]) = .next t ∧ ended 0 0 t = true) :=
  ⟨⟨_, rfl⟩, exists_of_after (by decide +kernel)⟩

theorem witness_SrcDstCopiesTheOutput : (onDst [0x33, 0x59]).dstHolds [0x33, 0x59] ∧ 2 ≤ Config.nbuf :=
  ⟨onDst_holds _ (by decide), le_nbuf (by decide)⟩

theorem witness_AssemblerEmitsTheCommandWords :
    readNumber "x".toList = none ∧ readNumber "1".toList = some 1 ∧ readNumber "0xFFFFFF".toList = some (2 ^ 24 - 1) ∧
      readNumber "0".toList = some 0 ∧ readNumber "16777216".toList = some (2 ^ 24) ∧
      readNumber "0xFFFFFFFF".toList = some (2 ^ 32 - 1) ∧ readNumber "4294967296".toList = some (2 ^ 32) ∧
      "fF".toList.map Char.toLower = [15, 15].map Nat.digitChar ∧ "16".toList = [1, 6].map Nat.digitChar ∧
      "EncBuf".toList.map Char.toLower = "ENCBUF".toList.map Char.toLower ∧
      "nop".toList ∉ ["ldalpha".toList, "lddef".toList, "encbuf".toList, "encint".toList, "decbuf".toList,
        "decint".toList, "createcodec".toList, "encodebuffer".toList, "encodeint".toList, "decodetobuffer".toList,
        "decodetoint".toList, ".word".toList] := by
  decide +kernel

/-- Both forms of number. -/
theorem witness_OnlyDecimalAndHexadecimalTextsAreNumbers :
    readNumber "16".toList = some 16 ∧ readNumber "0xfF".toList = some 255 := by decide +kernel

theorem witness_LinesAssembleToTheirCommand :
    ['D', 'E', 'C', 'I', 'N', 'T'] ≠ [] ∧ (∀ c ∈ ['D', 'E', 'C', 'I', 'N', 'T'], c ≠ ' ' ∧ c ≠ ';') ∧
      ['1', '6'] ≠ [] ∧ ∀ c ∈ ['1', '6'], c ≠ ' ' ∧ c ≠ ';' := by
  simp

theorem witness_ResetGivesTheResetValues :
    (∀ d, State.reset.lut.char d ≠ 0x3F) ∧ ({ onSrc [1] with host := [.reset] } : State).host = [.reset] :=
  ⟨by decide +kernel, rfl⟩

/-- An alphabet of 64 characters without a repeat, in SRC. -/
theorem witness_LdalphaLoadsOrReportsTheFirstFailure_loads :
    (onSrc defaultAlphabet.toList).srcHolds defaultAlphabet.toList ∧ defaultAlphabet.toList.length = 64 ∧
      defaultAlphabet.toList.Nodup :=
  ⟨onSrc_holds _ (by decide), by decide, by decide +kernel⟩

/-- A valid and an invalid input. -/
theorem witness_LdalphaSucceedsExactlyOnValidAlphabets :
    (onSrc defaultAlphabet.toList).srcHolds defaultAlphabet.toList ∧ defaultAlphabet.toList.length ≤ Config.nbuf ∧
      (∀ i j, i < j → j < 64 → defaultAlphabet.toList[i]? ≠ defaultAlphabet.toList[j]?) ∧
      (onSrc [1]).srcHolds [1] ∧ [1].length ≤ Config.nbuf ∧ [1].length ≠ 64 := by
  refine ⟨onSrc_holds _ (by decide), le_nbuf (by decide), fun i j hij hj h => ?_, onSrc_holds _ (by decide),
    le_nbuf (by decide), by decide⟩
  have distinct : ∀ j, j < 64 → ∀ i, i < j → defaultAlphabet.toList[i]? ≠ defaultAlphabet.toList[j]? := by
    decide +kernel
  exact distinct j hj i hij h

/-- Where NBUF is below `2^24 - 1`, an input length above it; at `2^24 - 1` SRC_LEN cannot exceed it, and the clause on
E_CAPACITY, SUB 1 says nothing (as in every statement with that clause; see `test_capacity_input` for NBUF = 4096). -/
theorem witness_inputAboveCapacity (h : Config.nbuf < 2 ^ 24 - 1) :
    Config.nbuf < ({ State.reset with srcLen := BitVec.ofNat 24 (Config.nbuf + 1) } : State).srcLen.toNat := by
  simp only [BitVec.toNat_ofNat]
  omega

/-- A short input, and L1-6c: 64 characters whose index 40 repeats index 11. -/
theorem witness_LdalphaLoadsOrReportsTheFirstFailure_reports :
    (onSrc []).srcLen.toNat ≤ Config.nbuf ∧ (onSrc []).srcLen.toNat ≠ 64 ∧
      (onSrc (defaultAlphabet.toList.set 40 0x41)).srcHolds (defaultAlphabet.toList.set 40 0x41) ∧
      (defaultAlphabet.toList.set 40 0x41).length = 64 ∧ ((defaultAlphabet.toList.set 40 0x41).take 40).Nodup ∧
      (defaultAlphabet.toList.set 40 0x41)[40]? = some 0x41 ∧ 0x41 ∈ (defaultAlphabet.toList.set 40 0x41).take 40 :=
  ⟨le_nbuf (by decide), by decide, onSrc_holds _ (by decide), by decide, by decide +kernel, by decide +kernel,
    by decide +kernel⟩

/-- An input whose second cell repeats the first, and "a?", each with nothing written after it. -/
theorem witness_LaterCellsDoNotHideTheFirstFailure :
    (∀ k, k < 1 → ({ onSrc [5, 5] with srcLen := 64 } : State).src.read k = ([5] : List Cell)[k]?) ∧
      ({ onSrc [5, 5] with srcLen := 64 } : State).src.read 1 = some 5 ∧
      ({ onSrc [5, 5] with srcLen := 64 } : State).srcLen.toNat = 64 ∧ ([5] : List Cell).Nodup ∧
      (∀ k, k < 1 → ({ onSrc [0x61, 0x3F] with srcLen := 3 } : State).src.read k = ([0x61] : List Cell)[k]?) ∧
      ({ onSrc [0x61, 0x3F] with srcLen := 3 } : State).src.read 1 = some 0x3F ∧
      1 < ({ onSrc [0x61, 0x3F] with srcLen := 3 } : State).srcLen.toNat ∧
      ({ onSrc [0x61, 0x3F] with srcLen := 3 } : State).srcLen.toNat ≤ Config.nbuf ∧
      ((onSrc [0x61, 0x3F]).rlut.entry 0x61).valid = true ∧ ((onSrc [0x61, 0x3F]).rlut.entry 0x3F).valid = false :=
  ⟨by decide, by decide, by decide, by decide, by decide, by decide, by decide, le_nbuf (by decide),
    by decide +kernel, by decide +kernel⟩

theorem witness_OnlyConstructionWritesTheCodec : ∃ t, step (State.reset.withFetchWord 32 0x2) = .next t := ⟨_, rfl⟩

theorem witness_EncbufWritesTheLowDigitsOrReportsTheFirstFailure_writes :
    (onSrc [0x12, 0x34]).srcHolds [0x12, 0x34] ∧ [0x12, 0x34].length ≤ Config.nbuf ∧
      outputLength none ((8 * 2 + 5) / 6) ≤ Config.nbuf ∧ outputLength (some 64) ((8 * 2 + 5) / 6) ≤ Config.nbuf ∧
      some 64 ≠ some 0 :=
  ⟨onSrc_holds _ (by decide), le_nbuf (by decide), le_nbuf (by decide), le_nbuf (by decide), by decide⟩

/-- An explicit output one above the capacity (for an input above it, `witness_inputAboveCapacity`). -/
theorem witness_EncbufWritesTheLowDigitsOrReportsTheFirstFailure_reports :
    (onSrc [1]).srcHolds [1] ∧ Config.nbuf < outputLength (some (Config.nbuf + 1)) ((8 * 1 + 5) / 6) :=
  ⟨onSrc_holds _ (by decide), Nat.lt_succ_self _⟩

/-- Both sides of the equivalence occur: one cell, and NBUF cells. -/
theorem witness_EncbufDefaultOutputCapacity :
    (onSrc [1]).srcHolds [1] ∧ [1].length ≤ Config.nbuf ∧ ¬ 3 * Config.nbuf / 4 < [1].length ∧
      (onSrc (List.replicate Config.nbuf 0)).srcHolds (List.replicate Config.nbuf 0) ∧
      3 * Config.nbuf / 4 < (List.replicate Config.nbuf (0 : Cell)).length := by
  have low := Config.nbuf_ge
  have high := Config.nbuf_lt
  refine ⟨onSrc_holds _ (by decide), le_nbuf (by decide), ?_, onSrc_holds _ (by simpa using high), ?_⟩
  · simp only [List.length_singleton]
    omega
  · rw [List.length_replicate]
    omega

theorem witness_EncintWritesTheDigitsOrReportsTheFirstFailure_writes :
    outputLength none (ldefInt State.reset.intIn.toNat) ≤ Config.nbuf ∧
      outputLength (some 9) 0 ≤ Config.nbuf ∧ 2 ^ 53 - 1 < 64 ^ 9 :=
  ⟨le_nbuf (by decide), le_nbuf (by decide), by decide⟩

theorem witness_EncintWritesTheDigitsOrReportsTheFirstFailure_reports :
    Config.nbuf < Config.nbuf + 1 ∧ 1 ≤ Config.nbuf ∧ 64 ^ 1 ≤ ({ State.reset with intIn := 64 } : State).intIn.toNat :=
  ⟨Nat.lt_succ_self _, le_nbuf (by decide), by decide⟩

/-- The least and a larger number of digits: 1, 64 (a power of two) and 65. -/
theorem witness_EncintDefaultLengthIsTheRule :
    (1 ≤ 64 ^ 0 ∧ (∀ j, j < 0 → 64 ^ j < 1) ∧ (∃ e, 1 = 2 ^ e)) ∧
      (64 ≤ 64 ^ 1 ∧ (∀ j, j < 1 → 64 ^ j < 64) ∧ (∃ e, 64 = 2 ^ e)) ∧
      (65 ≤ 64 ^ 2 ∧ (∀ j, j < 2 → 64 ^ j < 65) ∧ ¬ ∃ e, 65 = 2 ^ e) := by
  refine ⟨⟨by decide, by decide, 0, rfl⟩, ⟨by decide, by decide, 6, rfl⟩, by decide, by decide, ?_⟩
  rintro ⟨e, he⟩
  have := isPow2_iff 65
  rw [show isPow2 65 = false by decide +kernel] at this
  exact absurd (this.mpr ⟨e, he⟩) (by decide)

theorem witness_EncbufTruncationKeepsTheLowDigits :
    (onSrc [0xFF, 0xFF, 0xFF]).srcHolds [0xFF, 0xFF, 0xFF] ∧ 2 ≤ Config.nbuf ∧ ldefBuf 3 ≤ Config.nbuf ∧
      2 < ldefBuf 3 :=
  ⟨onSrc_holds _ (by decide), le_nbuf (by decide), le_nbuf (by decide), by decide⟩

/-- "zz" is an input of ENCBUF and of DECBUF. -/
theorem witness_DefaultLengthsAreTheLeastSufficient :
    (onSrc [0x7A, 0x7A]).srcHolds [0x7A, 0x7A] ∧ [0x7A, 0x7A].length ≤ Config.nbuf ∧ ldefBuf 2 ≤ Config.nbuf ∧
      (∀ c ∈ ([0x7A, 0x7A] : List Cell), ((onSrc [0x7A, 0x7A]).rlut.entry c).valid = true) :=
  ⟨onSrc_holds _ (by decide), le_nbuf (by decide), le_nbuf (by decide), by decide +kernel⟩

/-- Six characters for three bytes: positions 0 and 1 pad, by both clauses. -/
theorem witness_EncbufPadsWithTheZeroCharacter :
    (onSrc [0xFF, 0xFF, 0xFF]).srcHolds [0xFF, 0xFF, 0xFF] ∧ 6 ≤ Config.nbuf ∧ 8 * 3 ≤ 6 * (6 - 1 - 1) ∧
      1 < 6 - ldefBuf 3 :=
  ⟨onSrc_holds _ (by decide), le_nbuf (by decide), by decide, by decide⟩

theorem witness_ExtractorComputesTheDigits : (9007199254740991 : IntWord).toNat < 64 ^ 9 := by decide

/-- Buffers of different lengths, the shorter one's length omitted. -/
theorem witness_EncbufPreservesOrder :
    (onSrc [0x12]).srcHolds [0x12] ∧ (onSrc [0x00, 0x34]).srcHolds [0x00, 0x34] ∧
      (onSrc [0x12]).lut = (onSrc [0x00, 0x34]).lut ∧ (onSrc [0x12]).lut.increasing ∧ 2 ≤ Config.nbuf ∧
      outputLength none (ldefBuf 1) = 2 ∧ outputLength (some 2) (ldefBuf 2) = 2 ∧
      bufferValue [0x12] < bufferValue [0x00, 0x34] ∧ bufferValue [0x00, 0x34] < 64 ^ 2 :=
  ⟨onSrc_holds _ (by decide), onSrc_holds _ (by decide), rfl, defaultAlphabet_increasing, le_nbuf (by decide),
    by decide, by decide, by decide, by decide⟩

/-- L1-9: 63 and 64 in two digits. -/
theorem witness_EncintPreservesOrder :
    ({ State.reset with intIn := 63 } : State).lut.increasing ∧ 2 ≤ Config.nbuf ∧
      outputLength (some 2) (ldefInt 63) = 2 ∧ outputLength none (ldefInt 64) = 2 ∧
      (63 : IntWord) < 64 ∧ (64 : IntWord).toNat < 64 ^ 2 :=
  ⟨defaultAlphabet_increasing, le_nbuf (by decide), by decide, by decide +kernel, by decide, by decide⟩

theorem witness_EncbufAndEncintAgree :
    ({ onSrc [0x01, 0x00] with intIn := 256 } : State).srcHolds [0x01, 0x00] ∧ 3 ≤ Config.nbuf ∧
      ({ onSrc [0x01, 0x00] with intIn := 256 } : State).intIn.toNat = bufferValue [0x01, 0x00] ∧
      bufferValue [0x01, 0x00] < 64 ^ 3 :=
  ⟨onSrc_holds _ (by decide), le_nbuf (by decide), by decide, by decide⟩

/-- "3Y", with the digits 4 and 35. -/
theorem witness_DecbufWritesTheLowBytesOrReportsTheFirstFailure_writes :
    (onSrc [0x33, 0x59]).srcHolds [0x33, 0x59] ∧ [0x33, 0x59].length ≤ Config.nbuf ∧
      ([0x33, 0x59] : List Cell).map (onSrc [0x33, 0x59]).rlut.entry = ([4, 35] : List Digit).map (fun d => ⟨true, d⟩) ∧
      outputLength none ((6 * 2 + 7) / 8) ≤ Config.nbuf :=
  ⟨onSrc_holds _ (by decide), le_nbuf (by decide), by decide +kernel, le_nbuf (by decide)⟩

/-- A valid string with an output above the capacity (for an invalid character, see the next witness). -/
theorem witness_DecbufWritesTheLowBytesOrReportsTheFirstFailure_reports :
    (onSrc [0x33, 0x59]).srcHolds [0x33, 0x59] ∧
      (∀ c ∈ ([0x33, 0x59] : List Cell), ((onSrc [0x33, 0x59]).rlut.entry c).valid = true) ∧
      Config.nbuf < outputLength (some (Config.nbuf + 1)) ((6 * 2 + 7) / 8) :=
  ⟨onSrc_holds _ (by decide), by decide +kernel, Nat.lt_succ_self _⟩

/-- "a?z": index 1 is the lowest invalid one. It meets the clause on E_DECODE of the statements on DECBUF and DECINT as
well. -/
theorem witness_DecodersReportTheLowestInvalidCharacter :
    (onSrc [0x61, 0x3F, 0x7A]).srcHolds [0x61, 0x3F, 0x7A] ∧ [0x61, 0x3F, 0x7A].length ≤ Config.nbuf ∧
      (∀ x ∈ ([0x61, 0x3F, 0x7A] : List Cell).take 1, ((onSrc [0x61, 0x3F, 0x7A]).rlut.entry x).valid = true) ∧
      ([0x61, 0x3F, 0x7A] : List Cell)[1]? = some 0x3F ∧
      ((onSrc [0x61, 0x3F, 0x7A]).rlut.entry 0x3F).valid = false ∧ (none : Option Nat) ≠ some 0 :=
  ⟨onSrc_holds _ (by decide), le_nbuf (by decide), by decide +kernel, by decide, by decide +kernel, by decide⟩

theorem witness_DecintGivesTheValueOrReportsTheFirstFailure_gives :
    (onSrc [0x30, 0x2D]).srcHolds [0x30, 0x2D] ∧ [0x30, 0x2D].length ≤ Config.nbuf ∧
      ([0x30, 0x2D] : List Cell).map (onSrc [0x30, 0x2D]).rlut.entry = ([1, 0] : List Digit).map (fun d => ⟨true, d⟩) ∧
      stringValue [1, 0] < 2 ^ 53 :=
  ⟨onSrc_holds _ (by decide), le_nbuf (by decide), by decide +kernel, by decide⟩

/-- N14: "V--------", with the digits 32 and eight zeros. -/
theorem witness_DecintGivesTheValueOrReportsTheFirstFailure_overflows :
    (onSrc (0x56 :: List.replicate 8 0x2D)).srcHolds (0x56 :: List.replicate 8 0x2D) ∧
      ((0x56 :: List.replicate 8 0x2D : List Cell)).map (onSrc (0x56 :: List.replicate 8 0x2D)).rlut.entry =
        ((32 :: List.replicate 8 0 : List Digit)).map (fun d => ⟨true, d⟩) ∧
      8 < (32 :: List.replicate 8 0 : List Digit).length ∧
      stringValue ((32 :: List.replicate 8 0).take 8) < 2 ^ 53 ∧
      2 ^ 53 ≤ stringValue ((32 :: List.replicate 8 0).take 9) :=
  ⟨onSrc_holds _ (by decide), by decide +kernel, by decide, by decide, by decide⟩

/-- "zz" in four bytes: bytes 0 and 1 lie beyond the string's bits. -/
theorem witness_DecbufZeroFills :
    (onSrc [0x7A, 0x7A]).srcHolds [0x7A, 0x7A] ∧ 4 ≤ Config.nbuf ∧
      (∀ c ∈ ([0x7A, 0x7A] : List Cell), ((onSrc [0x7A, 0x7A]).rlut.entry c).valid = true) ∧ 6 * 2 ≤ 8 * (4 - 1 - 1) :=
  ⟨onSrc_holds _ (by decide), le_nbuf (by decide), by decide +kernel, by decide⟩

theorem witness_DecbufTruncationKeepsTheLowBytes :
    (onSrc [0x7A, 0x7A]).srcHolds [0x7A, 0x7A] ∧ 1 ≤ 1 ∧ 8 * 1 < 6 * 2 ∧
      (∀ c ∈ ([0x7A, 0x7A] : List Cell), ((onSrc [0x7A, 0x7A]).rlut.entry c).valid = true) :=
  ⟨onSrc_holds _ (by decide), le_refl _, by decide, by decide +kernel⟩

/-- The codec right after reset is a bijection with its reverse table. -/
theorem codecInv_onSrc (cs : List Cell) : CodecInv (onSrc cs) :=
  ⟨defaultAlphabet_increasing.distinct, reverseOf_deriveRlut defaultAlphabet_increasing.distinct⟩

theorem witness_BuffersRoundTrip :
    CodecInv (onSrc [0xFF]) ∧ (onSrc [0xFF]).srcHolds [0xFF] ∧ ldefBuf 1 ≤ outputLength (some 3) (ldefBuf 1) ∧
      outputLength (some 3) (ldefBuf 1) ≤ Config.nbuf ∧ CodecInv (onSrc []) ∧ (onSrc []).srcHolds [] ∧
      (onSrc [0x2D, 0x32, 0x7A]).rlut = (onSrc [0xFF]).rlut ∧
      (onSrc [0x2D, 0x32, 0x7A]).srcHolds [0x2D, 0x32, 0x7A] :=
  ⟨codecInv_onSrc _, onSrc_holds _ (by decide), by decide, le_nbuf (by decide), codecInv_onSrc _,
    onSrc_holds _ (by decide), rfl, onSrc_holds _ (by decide)⟩

theorem witness_DefaultLengthsRoundTripUpToAZeroByte :
    CodecInv (onSrc [0xFF]) ∧ (onSrc [0xFF]).srcHolds [0xFF] ∧ ldefBuf 1 ≤ Config.nbuf ∧
      (onSrc [0x32, 0x7A]).rlut = (onSrc [0xFF]).rlut ∧ (onSrc [0x32, 0x7A]).srcHolds [0x32, 0x7A] :=
  ⟨codecInv_onSrc _, onSrc_holds _ (by decide), le_nbuf (by decide), rfl, onSrc_holds _ (by decide)⟩

theorem witness_IntegersRoundTrip :
    CodecInv { onSrc [] with intIn := 64 } ∧ outputLength none (ldefInt 64) ≤ Config.nbuf ∧
      outputLength (some 2) (ldefInt 64) ≤ Config.nbuf ∧
      ({ onSrc [] with intIn := 64 } : State).intIn.toNat < 64 ^ 2 ∧
      (onSrc [0x30, 0x2D]).rlut = (onSrc []).rlut ∧ (onSrc [0x30, 0x2D]).srcHolds [0x30, 0x2D] :=
  ⟨⟨(codecInv_onSrc []).distinct, (codecInv_onSrc []).reverse⟩, le_nbuf (by decide +kernel), le_nbuf (by decide),
    by decide, rfl, onSrc_holds _ (by decide)⟩

theorem witness_EveryCommandCompletesOnWrittenOperands :
    OperandsReady .decint (onSrc [0x30, 0x2D]) ∧ OperandsReady .lddef State.reset := by
  refine ⟨fun _ _ k hk => ?_, fun h => by cases h⟩
  have : ∀ k, k < 2 → ((onSrc [0x30, 0x2D]).src.read k).isSome := by decide
  exact this k hk

/-- One written cell of two, and 63 of an alphabet's 64. -/
theorem witness_UnwrittenOperandCellsFault :
    ({ onSrc [0x61] with srcLen := 2 } : State).srcLen.toNat ≤ Config.nbuf ∧
      (∀ k, k < 1 → (onSrc [0x61]).src.read k = ([0x61] : List Cell)[k]?) ∧ (onSrc [0x61]).src.read 1 = none ∧
      (∀ c ∈ ([0x61] : List Cell), ((onSrc [0x61]).rlut.entry c).valid = true) ∧
      ({ onSrc (defaultAlphabet.toList.take 63) with srcLen := 64 } : State).srcLen.toNat = 64 ∧
      (defaultAlphabet.toList.take 63).Nodup ∧ (onSrc (defaultAlphabet.toList.take 63)).src.read 63 = none :=
  ⟨le_nbuf (by decide), by decide, by decide, by decide +kernel, by decide, by decide +kernel, by decide +kernel⟩

/-- A command ends with each of the codes 1 to 5. -/
theorem witness_codes :
    (∃ t, exec .ldalpha (onSrc [1]) = .next t ∧ statusCode t.status = 1) ∧
      (∃ t, exec (.encint (some 1)) { State.reset with intIn := 64 } = .next t ∧ statusCode t.status = 2) ∧
      (∃ t, exec .decint (onSrc [0x3F]) = .next t ∧ statusCode t.status = 3) ∧
      (∃ t, exec .decint (onSrc (List.replicate 9 0x7A)) = .next t ∧ statusCode t.status = 4) ∧
      (∃ t, exec (.encint (some (Config.nbuf + 1))) State.reset = .next t ∧ statusCode t.status = 5) := by
  have get {o : Host.Outcome State Fault Refusal} {c : BitVec 4}
      (h : after o (fun t => statusCode t.status == c) = true) : ∃ t, o = .next t ∧ statusCode t.status = c := by
    obtain ⟨t, ht, hp⟩ := exists_of_after h
    exact ⟨t, ht, eq_of_beq hp⟩
  refine ⟨get (by decide +kernel), get (by decide +kernel), get (by decide +kernel), get (by decide +kernel), ?_⟩
  refine ⟨raiseError .capacity 2 0 State.reset, ?_, by decide⟩
  show execEncint _ _ = _
  rw [execEncint, encintCommand_eq, if_neg (by simp only [outputLength]; omega)]
  rfl

theorem witness_FailuresArePrecise :
    (∃ t, exec .ldalpha (onSrc [1]) = .next t ∧ statusCode t.status ≠ 0) ∧
      (State.reset.withFetchWord 32 0x7).host = [.issue 0x7] ∧
      ∃ t, step (State.reset.withFetchWord 32 0x7) = .next t ∧ statusCode t.status ≠ 0 := by
  obtain ⟨t, ht, hc⟩ := witness_codes.1
  exact ⟨⟨t, ht, by rw [hc]; decide⟩, rfl, _, rfl, by decide⟩

theorem witness_SuccessClearsTheErrorInformation :
    (∃ t, exec .lddef State.reset = .next t ∧ statusCode t.status = 0) ∧
      (State.reset.withFetchWord 32 0x2).host = [.issue 0x2] ∧
      ∃ t, step (State.reset.withFetchWord 32 0x2) = .next t ∧ statusCode t.status = 0 :=
  ⟨⟨_, rfl, by decide⟩, rfl, _, rfl, by decide⟩

/-- Each command answers a next state on a small state. -/
theorem witness_CommandsWriteOnlyTheirResults :
    (∃ t, exec .ldalpha (onSrc defaultAlphabet.toList) = .next t) ∧ (∃ t, exec .lddef State.reset = .next t) ∧
      (∃ t, exec (.encbuf none) (onSrc [0x12]) = .next t) ∧ (∃ t, exec (.encint none) State.reset = .next t) ∧
      (∃ t, exec (.decbuf none) (onSrc [0x7A]) = .next t) ∧ (∃ t, exec .decint (onSrc [0x7A]) = .next t) := by
  have get {o : Host.Outcome State Fault Refusal} (h : after o (fun _ => true) = true) : ∃ t, o = .next t := by
    obtain ⟨t, ht, -⟩ := exists_of_after h
    exact ⟨t, ht⟩
  exact ⟨get (by decide +kernel), ⟨_, rfl⟩, get (by decide +kernel), get (by decide +kernel), get (by decide +kernel),
    get (by decide +kernel)⟩

/-- For EachCodeComesFromItsCommands and ErrorInformationIsAsTabled: codes 1 to 5 by `witness_codes`, code 0 here. -/
theorem witness_EachCodeComesFromItsCommands : ∃ t, exec .lddef State.reset = .next t ∧ statusCode t.status = 0 :=
  witness_SuccessClearsTheErrorInformation.1

theorem witness_ErrorInformationIsAsTabled :
    (∃ t, exec .decint (onSrc [0x3F]) = .next t ∧ statusCode t.status = 3) ∧ decode 0x0 = .error .opcode :=
  ⟨witness_codes.2.2.1, by decide⟩

/-- Two states that agree on SRC and the codec and differ elsewhere. -/
theorem witness_CommandsReadOnlyTheirOperands :
    (onSrc [0x7A]).srcLen = ({ onSrc [0x7A] with intIn := 5, outLen := 1, dst := [(0, 7)] } : State).srcLen ∧
      (∀ k, k < (onSrc [0x7A]).srcLen.toNat → (onSrc [0x7A]).src.read k =
        ({ onSrc [0x7A] with intIn := 5, outLen := 1, dst := [(0, 7)] } : State).src.read k) ∧
      (onSrc [0x7A]).lut = ({ onSrc [0x7A] with intIn := 5, outLen := 1, dst := [(0, 7)] } : State).lut ∧
      (onSrc [0x7A]).rlut = ({ onSrc [0x7A] with intIn := 5, outLen := 1, dst := [(0, 7)] } : State).rlut ∧
      (onSrc [0x7A]).intIn = State.reset.intIn :=
  ⟨rfl, fun _ _ => rfl, rfl, rfl, rfl⟩

/-- The invariant holds of a state with written cells, and a step leaves it. -/
theorem witness_EveryStepKeepsTheInvariant :
    Inv ((onSrc [0x12]).withFetchWord 32 0x3) ∧ ∃ t, step ((onSrc [0x12]).withFetchWord 32 0x3) = .next t := by
  refine ⟨⟨⟨(codecInv_onSrc [0x12]).distinct, (codecInv_onSrc [0x12]).reverse⟩,
    ⟨by decide, by decide, by decide, by decide, by decide⟩,
    ⟨by decide, by decide, fun k hk => ?_, fun k hk => by cases hk⟩, ⟨Nat.zero_le _, fun k hk => by cases hk⟩⟩, ?_⟩
  · have : Memory.read [(0, 0x12)] k = none ∨ k = 0 := by
      rw [Memory.read_cons]
      split
      · exact .inr (by omega)
      · exact .inl rfl
    rcases this with h | rfl
    · rw [show ((onSrc [0x12]).withFetchWord 32 0x3).src = [(0, 0x12)] from rfl, h] at hk
      cases hk
    · exact lt_of_lt_of_le (by decide) Config.nbuf_ge
  · obtain ⟨t, ht, -⟩ := exists_of_after
      (show after (step ((onSrc [0x12]).withFetchWord 32 0x3)) (ended 0 0) = true by decide +kernel)
    exact ⟨t, ht⟩

theorem witness_EveryStepKeepsTheCodecBijective :
    CodecInv (State.reset.withFetchWord 32 0x2) ∧ ∃ t, step (State.reset.withFetchWord 32 0x2) = .next t :=
  ⟨⟨(codecInv_onSrc []).distinct, (codecInv_onSrc []).reverse⟩, _, rfl⟩

theorem witness_ReachableCodecsAreBijective : Reachable { State.reset with host := [.issue 0x2] } := .reset _

/-- STICKY clear and set, a failing command, and no reset. -/
theorem witness_OnlyResetClearsSticky :
    (∃ t, step (State.reset.withFetchWord 32 0x0) = .next t ∧ statusSticky t.status = 1 ∧ statusCode t.status ≠ 0) ∧
      statusSticky State.reset.status = 0 ∧
      (∃ t, step (({ State.reset with status := 0x10 }).withFetchWord 32 0x2) = .next t) ∧
      statusSticky ({ State.reset with status := 0x10 } : State).status = 1 ∧
      ∀ rest, (State.reset.withFetchWord 32 0x0).host ≠ .reset :: rest := by
  refine ⟨⟨_, rfl, by decide, by decide⟩, by decide, ⟨_, rfl⟩, by decide, fun rest h => ?_⟩
  cases h

end Sys2Proof.Tests
end

section
/-! The obligations of spec/00_scope.md. -/

namespace Sys2Proof.Proofs

open Sys2Proof.Machine

/-- Settles O20: `bufferValue` and `stringValue` are `beval` in base 256 and 64, whose closed form is
`beval_map_eq_sum`. -/
theorem positionalValuesAreTheSums : Obligations.PositionalValuesAreTheSums := by
  unfold Obligations.PositionalValuesAreTheSums
  constructor
  · exact beval_map_eq_sum 256 BitVec.toNat
  · exact beval_map_eq_sum 64 BitVec.toNat

end Sys2Proof.Proofs
end

section
/-! The obligations of spec/10_state.md: everything a step can do to the state, said once, and the invariants that
follow from it. -/

namespace Sys2Proof.Machine

/-! ## Everything a step can do -/

/-- How an issued word completes: as one of the forms of `CommandEnd`, and never with E_BYTE (20_memory.md R54). -/
inductive Completion (s : State) : State → Prop where
  | failed (e : ErrCode) (sub : BitVec 4) (pos : Nat) (he : e ≠ .byte) : Completion s (raiseError e sub pos s)
  | constructed (lut : Alphabet) (hd : ∀ d e, lut.char d = lut.char e → d = e) :
      Completion s (complete (loadCodec lut s))
  | output (out : List Cell) (hl : out.length ≤ Config.nbuf) : Completion s (complete (writeOutput out s))
  | integer (v : IntWord) : Completion s (complete { s with intOut := v })

/-- The forms of a step's next state: the core waits, the host writes a cell or an operand register, the host reads,
an issued word completes, or the core is reset. The values the operand registers get and a read returns are left open:
no invariant depends on them. -/
inductive StepEnd (s : State) : State → Prop where
  | waited (hq : s.host = []) : StepEnd s s
  | wroteSrc (k v : Nat) (rest : List HostAction) (hq : s.host = .writeSrc k v :: rest) (hk : k < Config.nbuf) :
      StepEnd s { s with host := rest, src := s.src.write k (BitVec.ofNat Config.charW v) }
  | wroteReg (r : Reg) (v : Nat) (rest : List HostAction) (hq : s.host = .writeReg r v :: rest)
      (srcLen : Len) (intIn : IntWord) : StepEnd s { s with host := rest, srcLen := srcLen, intIn := intIn }
  | read (a : HostAction) (rest : List HostAction) (hq : s.host = a :: rest) (ha : ∀ w, a ≠ .issue w) (v : Nat) :
      StepEnd s (State.reply { s with host := rest } v)
  | completed (w : Word) (rest : List HostAction) (hq : s.host = .issue w :: rest) {t : State}
      (hc : Completion { s with host := rest } t) : StepEnd s t
  | reset (rest : List HostAction) (hq : s.host = .reset :: rest) : StepEnd s (hostReset { s with host := rest })

/-- No command ends with E_BYTE. -/
theorem exec_statusCode_ne_byte {i : Instr} {s t : State} (h : exec i s = .next t) :
    statusCode t.status ≠ ErrCode.byte.number := by
  cases i with
  | ldalpha =>
    rcases execLdalpha_cases h with ⟨-, rfl⟩ | ⟨-, -, rfl⟩ | ⟨-, cs, c, -, -, -, -, -, rfl⟩ | ⟨cs, -, -, -, rfl⟩ <;>
      simp [ErrCode.number]
  | lddef =>
    cases h
    simp [ErrCode.number]
  | encbuf len =>
    rcases execEncbuf_cases h with ⟨-, rfl⟩ | ⟨cs, -, -, -, rfl⟩ | ⟨cs, -, -, -, rfl⟩ <;> simp [ErrCode.number]
  | encint len =>
    rcases execEncint_cases h with ⟨-, rfl⟩ | ⟨n, -, -, -, rfl⟩ | ⟨-, -, rfl⟩ <;> simp [ErrCode.number]
  | decbuf bytes =>
    rcases execDecbuf_cases h with ⟨-, rfl⟩ | ⟨-, cs, c, -, -, -, -, -, rfl⟩ | ⟨cs, -, -, -, -, rfl⟩ |
      ⟨cs, -, -, -, -, rfl⟩ <;> simp [ErrCode.number]
  | decint =>
    rcases execDecint_cases h with ⟨-, rfl⟩ | ⟨-, cs, c, -, -, -, -, -, rfl⟩ | ⟨cs, k, -, -, -, -, -, -, rfl⟩ |
      ⟨cs, -, -, -, -, rfl⟩ <;> simp [ErrCode.number]

theorem exec_completion {i : Instr} {s t : State} (h : exec i s = .next t) : Completion s t := by
  have hb := exec_statusCode_ne_byte h
  cases exec_next h with
  | failed e sub pos =>
    refine .failed e sub pos fun he => hb ?_
    rw [raiseError_status, statusCode_onFailure, he]
  | constructed lut _ hd => exact .constructed lut hd
  | output out _ hl => exact .output out hl
  | integer v => exact .integer v

theorem issueWord_completion {w : Word} {s t : State} (h : issueWord w s = .next t) : Completion s t := by
  unfold issueWord at h
  split at h
  · exact exec_completion h
  · cases h
    exact .failed .illegal 0 0 (by decide)

theorem hostWriteSrc_next {k v : Nat} {s t : State} (h : hostWriteSrc k v s = .next t) :
    k < Config.nbuf ∧ t = { s with src := s.src.write k (BitVec.ofNat Config.charW v) } := by
  unfold hostWriteSrc at h
  split at h
  · cases h
  · rename_i hk
    split at h
    · cases h
    · cases h
      exact ⟨Nat.lt_of_not_le hk, rfl⟩

theorem hostReadSrc_next {k : Nat} {s t : State} (h : hostReadSrc k s = .next t) : ∃ v, t = s.reply v := by
  unfold hostReadSrc at h
  split at h
  · cases h
  · split at h
    · cases h
    · cases h
      exact ⟨_, rfl⟩

theorem hostReadDst_next {k : Nat} {s t : State} (h : hostReadDst k s = .next t) : ∃ v, t = s.reply v := by
  unfold hostReadDst at h
  split at h
  · cases h
  · split at h
    · cases h
    · cases h
      exact ⟨_, rfl⟩

theorem hostWriteReg_next {r : Reg} {v : Nat} {s t : State} (h : hostWriteReg r v s = .next t) :
    ∃ srcLen intIn, t = { s with srcLen := srcLen, intIn := intIn } := by
  cases r with
  | srcLen =>
    simp only [hostWriteReg] at h
    split at h
    · cases h
      exact ⟨_, s.intIn, rfl⟩
    · cases h
  | intIn =>
    simp only [hostWriteReg] at h
    split at h
    · cases h
      exact ⟨s.srcLen, _, rfl⟩
    · cases h
  | outLen | intOut | status | errInfo => cases h

theorem step_next {s t : State} (h : step s = .next t) : StepEnd s t := by
  unfold step at h
  split at h
  · rename_i hq
    cases h
    exact .waited hq
  · rename_i a rest hq
    cases a with
    | writeSrc k v =>
      obtain ⟨hk, rfl⟩ := hostWriteSrc_next h
      exact .wroteSrc k v rest hq hk
    | readSrc k =>
      obtain ⟨v, rfl⟩ := hostReadSrc_next h
      exact .read _ rest hq nofun v
    | readDst k =>
      obtain ⟨v, rfl⟩ := hostReadDst_next h
      exact .read _ rest hq nofun v
    | writeReg r v =>
      obtain ⟨srcLen, intIn, rfl⟩ := hostWriteReg_next h
      exact .wroteReg r v rest hq srcLen intIn
    | readReg r =>
      cases h
      exact .read _ rest hq nofun _
    | issue w => exact .completed w rest hq (issueWord_completion h)
    | reset =>
      cases h
      exact .reset rest hq

/-! ## The codec -/

/-- The invariant of the codec speaks of LUT and RLUT alone. -/
theorem CodecInv.of_eq {s t : State} (h : CodecInv s) (hl : t.lut = s.lut) (hr : t.rlut = s.rlut) : CodecInv t where
  distinct := hl ▸ h.distinct
  reverse := hl ▸ hr ▸ h.reverse

theorem codecInv_of_derived {t : State} (hd : ∀ d e, t.lut.char d = t.lut.char e → d = e)
    (hr : t.rlut = deriveRlut t.lut) : CodecInv t where
  distinct := hd
  reverse := hr ▸ reverseOf_deriveRlut hd

theorem codecInv_reset : CodecInv State.reset :=
  codecInv_of_derived defaultAlphabet_increasing.distinct rfl

theorem Completion.codecInv {s t : State} (hc : Completion s t) (h : CodecInv s) : CodecInv t := by
  cases hc with
  | failed | output | integer => exact h.of_eq rfl rfl
  | constructed lut hd => exact codecInv_of_derived hd rfl

theorem StepEnd.codecInv {s t : State} (hst : StepEnd s t) (h : CodecInv s) : CodecInv t := by
  cases hst with
  | waited => exact h
  | wroteSrc | wroteReg | read => exact h.of_eq rfl rfl
  | completed w rest _ hc => exact hc.codecInv (h.of_eq rfl rfl)
  | reset => exact codecInv_reset.of_eq rfl rfl

/-! ## STATUS and ERR_INFO -/

/-- Every code but E_BYTE's is at most 6 (60_exceptions.md R180). -/
theorem ErrCode.number_le_six {e : ErrCode} (h : e ≠ .byte) : e.number.toNat ≤ 6 := by
  cases e with
  | byte => exact absurd rfl h
  | alphabet | bounds | decode | overflow | capacity | illegal => decide

theorem StatusInv.of_eq {s t : State} (h : StatusInv s) (hs : t.status = s.status) (he : t.errInfo = s.errInfo) :
    StatusInv t where
  code := hs ▸ h.code
  reserved := hs ▸ h.reserved
  sticky := hs ▸ h.sticky
  info := hs ▸ he ▸ h.info
  infoReserved := he ▸ h.infoReserved

theorem statusInv_reset : StatusInv State.reset := by
  constructor <;> decide

theorem StatusInv.of_succeeded {s t : State} (h : StatusInv s) (hst : Succeeded s t) : StatusInv t where
  code := by simp [hst.code]
  reserved := hst.reserved.trans h.reserved
  sticky hc := absurd hst.code hc
  info _ := hst.info
  infoReserved := by rw [hst.info]; decide

theorem statusInv_raiseError {s : State} (h : StatusInv s) {e : ErrCode} (he : e ≠ .byte) (sub : BitVec 4)
    (pos : Nat) : StatusInv (raiseError e sub pos s) where
  code := by simpa using ErrCode.number_le_six he
  reserved := by simpa using h.reserved
  sticky := by simp
  info := by simp
  infoReserved := by simp

/-- A completion fails, leaving STICKY set, or succeeds. -/
theorem Completion.statusInv {s t : State} (hc : Completion s t) (h : StatusInv s) : StatusInv t := by
  cases hc with
  | failed e sub pos he => exact statusInv_raiseError h he sub pos
  | constructed lut => exact h.of_succeeded (succeeded_loadCodec lut s)
  | output out => exact h.of_succeeded (succeeded_writeOutput out s)
  | integer v => exact h.of_succeeded (succeeded_complete rfl)

theorem StepEnd.statusInv {s t : State} (hst : StepEnd s t) (h : StatusInv s) : StatusInv t := by
  cases hst with
  | waited => exact h
  | wroteSrc | wroteReg | read => exact h.of_eq rfl rfl
  | completed w rest _ hc => exact hc.statusInv (h.of_eq rfl rfl)
  | reset => exact statusInv_reset.of_eq rfl rfl

/-! ## The memories and the output -/

theorem MemoryInv.of_eq {s t : State} (h : MemoryInv s) (hs : t.src = s.src) (hd : t.dst = s.dst) : MemoryInv t where
  srcWf := hs ▸ h.srcWf
  dstWf := hd ▸ h.dstWf
  srcRange := hs ▸ h.srcRange
  dstRange := hd ▸ h.dstRange

theorem memoryInv_reset : MemoryInv State.reset where
  srcWf := Memory.wf_nil
  dstWf := Memory.wf_nil
  srcRange := by simp
  dstRange := by simp

theorem MemoryInv.of_write {s t : State} {k : Nat} {v : Cell} (h : MemoryInv s) (hk : k < Config.nbuf)
    (hs : t.src = s.src.write k v) (hd : t.dst = s.dst) : MemoryInv t where
  srcWf := hs ▸ Memory.write_wf k v h.srcWf
  dstWf := hd ▸ h.dstWf
  srcRange j hj := by
    rw [hs, Memory.read_write] at hj
    split at hj
    · omega
    · exact h.srcRange j hj
  dstRange := hd ▸ h.dstRange

theorem memoryInv_writeOutput {s : State} (h : MemoryInv s) {out : List Cell} (hl : out.length ≤ Config.nbuf) :
    MemoryInv (writeOutput out s) where
  srcWf := h.srcWf
  dstWf := Memory.writeList_wf 0 out h.dstWf
  srcRange := h.srcRange
  dstRange j hj := by
    rw [writeOutput_dst, Memory.read_writeList_zero] at hj
    split at hj
    · omega
    · exact h.dstRange j hj

theorem Completion.memoryInv {s t : State} (hc : Completion s t) (h : MemoryInv s) : MemoryInv t := by
  cases hc with
  | failed | constructed | integer => exact h.of_eq rfl rfl
  | output out hl => exact (memoryInv_writeOutput h hl).of_eq rfl rfl

theorem StepEnd.memoryInv {s t : State} (hst : StepEnd s t) (h : MemoryInv s) : MemoryInv t := by
  cases hst with
  | waited => exact h
  | wroteSrc k v rest _ hk => exact h.of_write hk rfl rfl
  | wroteReg | read => exact h.of_eq rfl rfl
  | completed w rest _ hc => exact hc.memoryInv (h.of_eq rfl rfl)
  | reset => exact memoryInv_reset.of_eq rfl rfl

theorem OutputInv.of_eq {s t : State} (h : OutputInv s) (hl : t.outLen = s.outLen) (hd : t.dst = s.dst) :
    OutputInv t where
  fits := hl ▸ h.fits
  written := hl ▸ hd ▸ h.written

theorem outputInv_reset : OutputInv State.reset where
  fits := by simp
  written := by simp

/-- A sequence that DST holds and that fits DST is an output whose cells are written. -/
theorem outputInv_of_dstHolds {t : State} {out : List Cell} (h : t.dstHolds out) (hl : out.length ≤ Config.nbuf) :
    OutputInv t where
  fits := h.1 ▸ hl
  written k hk := by
    rw [h.1] at hk
    simp [h.2 k hk, hk]

theorem Completion.outputInv {s t : State} (hc : Completion s t) (h : OutputInv s) : OutputInv t := by
  cases hc with
  | failed | constructed | integer => exact h.of_eq rfl rfl
  | output out hl => exact outputInv_of_dstHolds (dstHolds_writeOutput (lt_of_le_of_lt hl Config.nbuf_lt)) hl

theorem StepEnd.outputInv {s t : State} (hst : StepEnd s t) (h : OutputInv s) : OutputInv t := by
  cases hst with
  | waited => exact h
  | wroteSrc | wroteReg | read => exact h.of_eq rfl rfl
  | completed w rest _ hc => exact hc.outputInv (h.of_eq rfl rfl)
  | reset => exact outputInv_reset.of_eq rfl rfl

/-! ## Reachable states -/

/-- The codec is a bijection in every reachable state: reset makes it one, and every step keeps it. -/
theorem Reachable.codecInv {s : State} (h : Reachable s) : CodecInv s := by
  induction h with
  | reset actions => exact codecInv_reset.of_eq rfl rfl
  | step _ hst ih => exact (step_next hst).codecInv ih

/-! ## STICKY -/

/-- A completion leaves the reserved bits of STATUS, and either fails and sets STICKY, or succeeds and leaves it. -/
theorem Completion.status {s t : State} (hc : Completion s t) :
    statusReserved t.status = statusReserved s.status ∧
      ((statusCode t.status ≠ 0 ∧ statusSticky t.status = 1) ∨
        (statusCode t.status = 0 ∧ statusSticky t.status = statusSticky s.status)) := by
  cases hc with
  | failed | constructed | output | integer => simp

/-- A step that is no reset leaves STATUS and issues nothing, or completes an issued word. -/
theorem StepEnd.status {s t : State} (hst : StepEnd s t) (hreset : ∀ rest, s.host ≠ .reset :: rest) :
    (t.status = s.status ∧ ∀ w rest, s.host ≠ .issue w :: rest) ∨
      ∃ w rest, s.host = .issue w :: rest ∧ Completion { s with host := rest } t := by
  cases hst with
  | waited hq => exact .inl ⟨rfl, by simp [hq]⟩
  | wroteSrc k v rest hq => exact .inl ⟨rfl, by simp [hq]⟩
  | wroteReg r v rest hq => exact .inl ⟨rfl, by simp [hq]⟩
  | read a rest hq ha => exact .inl ⟨rfl, by simp [hq, ha]⟩
  | completed w rest hq hc => exact .inr ⟨w, rest, hq, hc⟩
  | reset rest hq => exact absurd hq (hreset rest)

end Sys2Proof.Machine

namespace Sys2Proof.Proofs

open Sys2Proof.Machine

/-- Settles O58: of the forms of a step's next state, only a construction and reset write LUT or RLUT, and both derive
RLUT from an alphabet without repeats. -/
theorem everyStepKeepsTheCodecBijective : Obligations.EveryStepKeepsTheCodecBijective := by
  unfold Obligations.EveryStepKeepsTheCodecBijective
  intro s t h hst
  exact (step_next hst).codecInv h

/-- Settles O52: each of the four parts of the invariant is kept by every form of a step's next state. -/
theorem everyStepKeepsTheInvariant : Obligations.EveryStepKeepsTheInvariant := by
  unfold Obligations.EveryStepKeepsTheInvariant
  intro s t h hst
  have hend := step_next hst
  exact ⟨hend.codecInv h.codec, hend.statusInv h.status, hend.memoryInv h.memory, hend.outputInv h.output⟩

/-- Settles O53: the fields of `CodecInv` in a reachable state. -/
theorem reachableCodecsAreBijective : Obligations.ReachableCodecsAreBijective := by
  unfold Obligations.ReachableCodecsAreBijective
  intro s h
  obtain ⟨hd, hr⟩ := h.codecInv
  exact ⟨fun d e hne heq => hne (hd d e heq), hr.valid, hr.index, hr.absent⟩

/-- Settles O54: a step that is neither a reset nor an issued word leaves STATUS; an issued word completes as
`Completion.status` says. -/
theorem onlyResetClearsSticky : Obligations.OnlyResetClearsSticky := by
  unfold Obligations.OnlyResetClearsSticky
  intro s t hst hreset
  rcases (step_next hst).status hreset with ⟨hs, hq⟩ | ⟨w, rest, hq, hc⟩
  · rw [hs]
    exact ⟨rfl, id, fun h0 h1 => by simp [h0] at h1, fun w rest hi => absurd hi (hq w rest)⟩
  · obtain ⟨hr, ⟨hcode, hsticky⟩ | ⟨hcode, hsticky⟩⟩ := hc.status
    · exact ⟨hr, fun _ => hsticky, fun _ _ => ⟨⟨w, rest, hq⟩, hcode⟩, fun _ _ _ _ => hsticky⟩
    · exact ⟨hr, fun h1 => hsticky.trans h1, fun h0 h1 => by simp [hsticky, h0] at h1,
        fun _ _ _ hne => absurd hcode hne⟩

end Sys2Proof.Proofs
end

section
/-! The obligations of spec/20_memory.md: what each host action does, and that a command's result depends on its
operands alone, so that running it again changes nothing. -/

namespace Sys2Proof.Machine

/-! ## The host's actions -/

/-- A step with an action pending is that action. -/
theorem step_cons {s : State} {a : HostAction} {rest : List HostAction} (h : s.host = a :: rest) :
    step s = hostAct a { s with host := rest } := by
  simp [step, h]

theorem issueWord_of_decode {w : Word} {i : Instr} (h : decode w = .ok i) (s : State) :
    issueWord w s = exec i s := by
  simp [issueWord, h]

theorem decodeTableWord_eq_some {nbits w : Nat} {i : Instr} :
    decodeTableWord nbits w = some i ↔ decode (tableWord nbits w) = .ok i := by
  unfold decodeTableWord
  split <;> simp [*]

theorem hostWriteSrc_of_lt {k v : Nat} (hk : k < Config.nbuf) (hv : v < 2 ^ Config.charW) (s : State) :
    hostWriteSrc k v s = .next { s with src := s.src.write k (BitVec.ofNat Config.charW v) } := by
  rw [hostWriteSrc, if_neg (Nat.not_le.mpr hk), if_neg (Nat.not_le.mpr hv)]

theorem hostWriteSrc_refused {k v : Nat} (h : Config.nbuf ≤ k ∨ 2 ^ Config.charW ≤ v) (s : State) :
    ∃ r, hostWriteSrc k v s = .refused r := by
  unfold hostWriteSrc
  split
  · exact ⟨_, rfl⟩
  · rename_i hk
    exact ⟨_, if_pos (h.resolve_left hk)⟩

theorem hostReadSrc_written {k : Nat} {v : Cell} {s : State} (hk : k < Config.nbuf) (hr : s.src.read k = some v) :
    hostReadSrc k s = .next (s.reply v.toNat) := by
  simp [hostReadSrc, Nat.not_le.mpr hk, hr]

theorem hostReadSrc_unwritten {k : Nat} {s : State} (hk : k < Config.nbuf) (hr : s.src.read k = none) :
    hostReadSrc k s = .fault (.unwrittenSrc k) := by
  simp [hostReadSrc, Nat.not_le.mpr hk, hr]

theorem hostReadSrc_refused {k : Nat} (hk : Config.nbuf ≤ k) (s : State) :
    hostReadSrc k s = .refused (.noSuchCell k) :=
  if_pos hk

theorem hostReadDst_written {k : Nat} {v : Cell} {s : State} (hk : k < Config.nbuf) (hr : s.dst.read k = some v) :
    hostReadDst k s = .next (s.reply v.toNat) := by
  simp [hostReadDst, Nat.not_le.mpr hk, hr]

theorem hostReadDst_unwritten {k : Nat} {s : State} (hk : k < Config.nbuf) (hr : s.dst.read k = none) :
    hostReadDst k s = .fault (.unwrittenDst k) := by
  simp [hostReadDst, Nat.not_le.mpr hk, hr]

theorem hostReadDst_refused {k : Nat} (hk : Config.nbuf ≤ k) (s : State) :
    hostReadDst k s = .refused (.noSuchCell k) :=
  if_pos hk

theorem hostWriteReg_readOnly {r : Reg} (hl : r ≠ .srcLen) (hi : r ≠ .intIn) (v : Nat) (s : State) :
    hostWriteReg r v s = .refused (.readOnlyRegister r) := by
  cases r with
  | srcLen => exact absurd rfl hl
  | intIn => exact absurd rfl hi
  | outLen | intOut | status | errInfo => rfl

/-! ## A command's result depends on its operands alone -/

/-- What a command that succeeds writes beside STATUS and ERR_INFO. -/
inductive Result where
  | codec (lut : Alphabet)
  | output (out : List Cell)
  | integer (v : IntWord)

/-- The writes of a result (20_memory.md R51, 40_construction.md R104, 42_decoder.md R162). -/
def Result.store (s : State) : Result → State
  | .codec lut => loadCodec lut s
  | .output out => writeOutput out s
  | .integer v => { s with intOut := v }

/-- A command as a function from its operands to its result, or to why it stops; `exec_eq_endCommand` ties it to
`exec`. -/
def commandResult (s : State) : Instr → Except Stop Result
  | .ldalpha => do
    requireInput Config.nbuf s
    require (s.srcLen.toNat = 64) .alphabet 1 s.srcLen.toNat
    let cs ← scanSrc repeatCheck s
    return .codec (Alphabet.ofCells cs)
  | .lddef => return .codec defaultAlphabet
  | .encbuf len => do
    requireInput Config.nbuf s
    let cs ← scanSrc byteCheck s
    let outLen := len.getD (ldefBuf s.srcLen.toNat)
    requireOutput Config.nbuf outLen
    return .output (s.lut.chars (digitsOf (bufferValue cs) outLen))
  | .encint len => do
    let outLen := len.getD (ldefInt s.intIn.toNat)
    requireOutput Config.nbuf outLen
    requireFits len s.intIn.toNat
    return .output (s.lut.chars (digitsOf s.intIn.toNat outLen))
  | .decbuf bytes => do
    requireInput Config.nbuf s
    let cs ← scanSrc (decodeCheck s.rlut) s
    let outLen := bytes.getD (ldefDec s.srcLen.toNat)
    requireOutput Config.nbuf outLen
    return .output (bytesOf (stringValue (s.rlut.digits cs)) outLen)
  | .decint => do
    requireInput Config.nbuf s
    let cs ← scanSrc (decodeCheck s.rlut) s
    let acc ← accumulate (s.rlut.digits cs) 0 0
    return .integer (BitVec.ofNat Config.intW acc)

/-- A command finds its result and then stores it. -/
theorem exec_eq_endCommand (i : Instr) (s : State) :
    exec i s = endCommand s (Result.store s <$> commandResult s i) := by
  cases i with
  | ldalpha => simp only [exec, execLdalpha, ldalphaCommand, commandResult, map_bind, map_pure, Result.store]
  | lddef => rfl
  | encbuf len => simp only [exec, execEncbuf, encbufCommand, commandResult, map_bind, map_pure, Result.store]
  | encint len => simp only [exec, execEncint, encintCommand, commandResult, map_bind, map_pure, Result.store]
  | decbuf bytes =>
    simp only [exec, execDecbuf, decbufCommand, commandResult, map_bind, map_pure, Result.store, map_zeroExtend]
  | decint => simp only [exec, execDecint, decintCommand, commandResult, map_bind, map_pure, Result.store]

/-- The input `SRC[0..SRC_LEN-1]` is the same in two states. -/
structure SameInput (s t : State) : Prop where
  srcLen : t.srcLen = s.srcLen
  cells : ∀ k, k < s.srcLen.toNat → t.src.read k = s.src.read k

/-- Two states agree on what a command reads (30_encoding.md R72). -/
def SameOperands (s t : State) : Instr → Prop
  | .ldalpha => SameInput s t
  | .lddef => True
  | .encbuf _ => SameInput s t ∧ t.lut = s.lut
  | .encint _ => t.intIn = s.intIn ∧ t.lut = s.lut
  | .decbuf _ => SameInput s t ∧ t.rlut = s.rlut
  | .decint => SameInput s t ∧ t.rlut = s.rlut

/-- A scan depends only on the cells it reads. -/
theorem scanCells_congr {check : List Cell → Nat → Cell → Option Stop} {m m' : Memory} {n k : Nat} {seen : List Cell}
    (h : ∀ j, k ≤ j → j < k + n → m'.read j = m.read j) :
    scanCells check m' n k seen = scanCells check m n k seen := by
  induction n generalizing k seen with
  | zero => rfl
  | succ n ih =>
    have hrest (c : Cell) : scanCells check m' n (k + 1) (c :: seen) = scanCells check m n (k + 1) (c :: seen) :=
      ih fun j hk hj => h j (by omega) (by omega)
    simp only [scanCells, h k (by omega) (by omega), hrest]

theorem SameInput.scanSrc_eq {s t : State} (h : SameInput s t) (check : List Cell → Nat → Cell → Option Stop) :
    scanSrc check t = scanSrc check s := by
  unfold scanSrc
  rw [h.srcLen]
  exact scanCells_congr fun j _ hj => h.cells j (by omega)

theorem SameInput.requireInput_eq {s t : State} (h : SameInput s t) (n : Nat) : requireInput n t = requireInput n s := by
  rw [requireInput, h.srcLen, requireInput]

/-- Agreement on the operands is agreement on the result. -/
theorem SameOperands.commandResult_eq {s t : State} {i : Instr} (h : SameOperands s t i) :
    commandResult t i = commandResult s i := by
  cases i with
  | ldalpha => simp only [commandResult, h.requireInput_eq, h.scanSrc_eq, h.srcLen]
  | lddef => rfl
  | encbuf len =>
    obtain ⟨hin, hlut⟩ := h
    simp only [commandResult, hin.requireInput_eq, hin.scanSrc_eq, hin.srcLen, hlut]
  | encint len =>
    obtain ⟨hint, hlut⟩ := h
    simp only [commandResult, hint, hlut]
  | decbuf bytes =>
    obtain ⟨hin, hrlut⟩ := h
    simp only [commandResult, hin.requireInput_eq, hin.scanSrc_eq, hin.srcLen, hrlut]
  | decint =>
    obtain ⟨hin, hrlut⟩ := h
    simp only [commandResult, hin.requireInput_eq, hin.scanSrc_eq, hrlut]

/-! ## A command run again -/

/-- No command writes SRC, SRC_LEN or INT_IN (20_memory.md R51, 10_state.md R26). -/
theorem CommandEnd.inputs {i : Instr} {s t : State} (h : CommandEnd i s t) :
    t.src = s.src ∧ t.srcLen = s.srcLen ∧ t.intIn = s.intIn := by
  cases h with
  | failed | constructed | output | integer => exact ⟨rfl, rfl, rfl⟩

/-- Only the commands that do not read the codec write it. -/
theorem CommandEnd.sameOperands {i : Instr} {s t : State} (h : CommandEnd i s t) : SameOperands s t i := by
  obtain ⟨hsrc, hlen, hint⟩ := h.inputs
  have hin : SameInput s t := ⟨hlen, fun k _ => by rw [hsrc]⟩
  cases h with
  | failed =>
    cases i with
    | ldalpha => exact hin
    | lddef => trivial
    | encbuf | decbuf | decint => exact ⟨hin, rfl⟩
    | encint => exact ⟨hint, rfl⟩
  | constructed _ hi =>
    rcases hi with rfl | rfl
    · exact hin
    · trivial
  | output _ hi =>
    obtain ⟨len, rfl | rfl | rfl⟩ := hi
    · exact ⟨hin, rfl⟩
    · exact ⟨hint, rfl⟩
    · exact ⟨hin, rfl⟩
  | integer _ hi =>
    subst hi
    exact ⟨hin, rfl⟩

theorem raiseError_raiseError (e : ErrCode) (sub : BitVec 4) (pos : Nat) (s : State) :
    raiseError e sub pos (raiseError e sub pos s) = raiseError e sub pos s := by
  simp [raiseError]

/-- Storing one result twice is storing it once. -/
theorem Result.complete_store_twice (r : Result) (s : State) :
    complete (r.store (complete (r.store s))) = complete (r.store s) := by
  cases r with
  | codec lut => simp [Result.store, complete, loadCodec]
  | output out => simp [Result.store, complete, writeOutput, Memory.writeList_writeList]
  | integer v => simp [Result.store, complete]

/-- Run on the state it leaves, a command answers that state: it finds its operands, and so its result, unchanged. -/
theorem exec_again {i : Instr} {s t : State} (h : exec i s = .next t) : exec i t = .next t := by
  have hres : commandResult t i = commandResult s i := (exec_next h).sameOperands.commandResult_eq
  rw [exec_eq_endCommand, hres]
  rw [exec_eq_endCommand] at h
  cases hr : commandResult s i with
  | ok r =>
    rw [hr] at h
    cases h
    exact congrArg _ (r.complete_store_twice s)
  | error stop =>
    rw [hr] at h
    cases stop with
    | raise e sub pos =>
      cases h
      exact congrArg _ (raiseError_raiseError e sub pos s)
    | unwritten k => cases h

end Sys2Proof.Machine

namespace Sys2Proof.Proofs

open Sys2Proof.Machine

/-- Settles O11: of the forms of a step's next state only a read is left, which changes the replies alone; a command
finds its operands unchanged when it is run again (`exec_again`). -/
theorem readsAndRepeatedCommandsChangeNothing : Obligations.ReadsAndRepeatedCommandsChangeNothing := by
  unfold Obligations.ReadsAndRepeatedCommandsChangeNothing
  refine ⟨fun s t a rest hs hst hsrc hreg hissue hreset => ?_, fun i s t h => ?_⟩
  · cases step_next hst with
    | waited hq => cases hs.symm.trans hq
    | wroteSrc k v _ hq =>
      cases hs.symm.trans hq
      exact absurd rfl (hsrc k v)
    | wroteReg r v _ hq =>
      cases hs.symm.trans hq
      exact absurd rfl (hreg r v)
    | read _ _ hq =>
      cases hs.symm.trans hq
      rfl
    | completed w _ hq =>
      cases hs.symm.trans hq
      exact absurd rfl (hissue w)
    | reset _ hq =>
      cases hs.symm.trans hq
      exact absurd rfl hreset
  · obtain ⟨hsrc, hlen, hint⟩ := (exec_next h).inputs
    exact ⟨hsrc, hlen, hint, exec_again h⟩

/-- Settles O5: a step is the pending action, and `Issue` of a word that decodes is `exec`; taking the action that
`withFetchWord` put in front off the queue gives the state back. -/
theorem stepRunsTheDecodedCommand : Obligations.StepRunsTheDecodedCommand := by
  unfold Obligations.StepRunsTheDecodedCommand
  constructor
  · intro s w rest i hs hd
    exact (step_cons hs).trans (issueWord_of_decode hd _)
  · intro s nbits w i hd
    have hq : (s.withFetchWord nbits w).host = .issue (tableWord nbits w) :: s.host := rfl
    exact (step_cons hq).trans (issueWord_of_decode (decodeTableWord_eq_some.mp hd) s)

/-- Settles O8: the rules of the two write actions, and `Memory.read` after `Memory.write`. -/
theorem hostWritesDoAsTabled : Obligations.HostWritesDoAsTabled := by
  unfold Obligations.HostWritesDoAsTabled
  intro s rest
  refine ⟨fun k v hs hk hv => ?_, fun v hs hv => ?_, fun v hs hv => ?_⟩
  · exact ⟨_, (step_cons hs).trans (hostWriteSrc_of_lt hk hv _), Memory.read_write_same _ _ _,
      fun j hj => Memory.read_write_other _ _ _ _ hj.symm, rfl⟩
  · exact (step_cons hs).trans (if_pos hv)
  · exact (step_cons hs).trans (if_pos hv)

/-- Settles O9: the rules of the read actions, on a written and on an unwritten cell. -/
theorem hostReadsReturnTheValue : Obligations.HostReadsReturnTheValue := by
  unfold Obligations.HostReadsReturnTheValue
  intro s rest
  exact ⟨fun k v hs hk hr => (step_cons hs).trans (hostReadSrc_written hk hr),
    fun k v hs hk hr => (step_cons hs).trans (hostReadDst_written hk hr),
    fun k hs hk hr => (step_cons hs).trans (hostReadSrc_unwritten hk hr),
    fun k hs hk hr => (step_cons hs).trans (hostReadDst_unwritten hk hr),
    step_cons, step_cons, step_cons, step_cons, step_cons, step_cons⟩

/-- Settles O10: each action checks its precondition first. -/
theorem otherHostActionsAreRefused : Obligations.OtherHostActionsAreRefused := by
  unfold Obligations.OtherHostActionsAreRefused
  intro s rest
  refine ⟨fun k v hs h => ?_, fun k hs hk => ?_, fun k hs hk => ?_, fun v hs hv => ?_, fun v hs hv => ?_,
    fun r v hs hl hi => ?_⟩
  · rw [step_cons hs]
    exact hostWriteSrc_refused h _
  · exact ⟨_, (step_cons hs).trans (hostReadSrc_refused hk _)⟩
  · exact ⟨_, (step_cons hs).trans (hostReadDst_refused hk _)⟩
  · exact ⟨_, (step_cons hs).trans (if_neg (Nat.not_lt.mpr hv))⟩
  · exact ⟨_, (step_cons hs).trans (if_neg (Nat.not_lt.mpr hv))⟩
  · exact ⟨_, (step_cons hs).trans (hostWriteReg_readOnly hl hi v _)⟩

end Sys2Proof.Proofs
end

section
/-! The obligations of spec/30_encoding.md on the command word: a word is a command exactly when it is the word of a
well-formed command, and every other word is illegal by its fields. -/

namespace Sys2Proof

open Machine

/-! ## The length field -/

/-- The LEN field of a length argument stands for that argument (30_encoding.md R74). -/
theorem lenArg_getD {len : Option Nat} (h : lenArgOk len = true) :
    lenArg (BitVec.ofNat 24 (len.getD 0)).toNat = len := by
  cases len with
  | none => rfl
  | some n =>
    obtain ⟨hpos, hlt⟩ : 1 ≤ n ∧ n < 2 ^ 24 := by simpa [lenArgOk] using h
    rw [Option.getD_some, BitVec.toNat_ofNat, Nat.mod_eq_of_lt hlt]
    exact if_neg (by omega)

@[simp] theorem getD_lenArg (n : Nat) : (lenArg n).getD 0 = n := by
  unfold lenArg
  split
  · rename_i h
    exact h.symm
  · rfl

theorem lenArgOk_lenArg {n : Nat} (h : n < 2 ^ 24) : lenArgOk (lenArg n) = true := by
  unfold lenArg
  split
  · rfl
  · simp only [lenArgOk, Bool.and_eq_true, decide_eq_true_eq]
    omega

/-! ## Decoding and encoding are inverse -/

theorem bareCommand_eq_ok {i j : Instr} {n : Nat} : bareCommand i n = .ok j ↔ n = 0 ∧ j = i := by
  unfold bareCommand
  split <;> simp [*, eq_comm]

theorem decode_encode {i : Instr} (h : i.wf = true) : decode (encode i) = .ok i := by
  cases i with
  | ldalpha | lddef | decint => simp [decode, opNumber, lenOperand, bareCommand]
  | encbuf len | encint len | decbuf len => simpa [decode, opNumber, lenOperand] using lenArg_getD h

/-- The fields of a word that decodes: those of the command's word, and the command is well-formed. -/
theorem fields_of_decode {w : Word} {i : Instr} (h : decode w = .ok i) :
    opField w = opNumber i ∧ rsvField w = 0 ∧ lenField w = lenOperand i ∧ i.wf = true := by
  have hlen : lenArgOk (lenArg (lenField w).toNat) = true := lenArgOk_lenArg (lenField w).isLt
  simp only [decode] at h
  split at h
  · cases h
  · split at h
    · cases h
    · rename_i hrsv
      have hrsv : rsvField w = 0 := Decidable.not_not.mp hrsv
      split at h
      case h_1 hop | h_2 hop | h_6 hop =>
        obtain ⟨hzero, rfl⟩ := bareCommand_eq_ok.mp h
        exact ⟨BitVec.eq_of_toNat_eq hop, hrsv, BitVec.eq_of_toNat_eq hzero, rfl⟩
      case h_3 hop | h_4 hop | h_5 hop =>
        cases h
        exact ⟨BitVec.eq_of_toNat_eq hop, hrsv, by simp [lenOperand], hlen⟩
      case h_7 => cases h

/-- A word decodes to a command exactly when the command is well-formed and the word is its word. -/
theorem decode_eq_ok_iff {w : Word} {i : Instr} : decode w = .ok i ↔ i.wf = true ∧ encode i = w := by
  constructor
  · intro h
    obtain ⟨hop, hrsv, hlen, hwf⟩ := fields_of_decode h
    exact ⟨hwf, word_ext (by rw [opField_encode, hop]) (by rw [rsvField_encode, hrsv])
      (by rw [lenField_encode, hlen])⟩
  · rintro ⟨hwf, rfl⟩
    exact decode_encode hwf

/-! ## Words given by their fields -/

section
variable {op rsv len : Nat} (hop : op < 16) (hrsv : rsv < 16) (hlen : len < 2 ^ 24)
include hop hrsv hlen

theorem toNat_wordOfFields : (wordOfFields op rsv len).toNat = len * 256 + rsv * 16 + op := by
  rw [wordOfFields, BitVec.toNat_ofNat]
  omega

theorem opField_wordOfFields : (opField (wordOfFields op rsv len)).toNat = op := by
  rw [opField, BitVec.extractLsb'_toNat, toNat_wordOfFields hop hrsv hlen, Nat.shiftRight_eq_div_pow]
  omega

theorem rsvField_wordOfFields : (rsvField (wordOfFields op rsv len)).toNat = rsv := by
  rw [rsvField, BitVec.extractLsb'_toNat, toNat_wordOfFields hop hrsv hlen, Nat.shiftRight_eq_div_pow]
  omega

theorem lenField_wordOfFields : (lenField (wordOfFields op rsv len)).toNat = len := by
  rw [lenField, BitVec.extractLsb'_toNat, toNat_wordOfFields hop hrsv hlen, Nat.shiftRight_eq_div_pow]
  omega

end

/-- The word of a command, by its fields (30_encoding.md R70). -/
theorem wordOfFields_eq_encode (i : Instr) :
    wordOfFields (opNumber i).toNat 0 (lenOperand i).toNat = encode i := by
  refine BitVec.eq_of_toNat_eq ?_
  rw [toNat_wordOfFields (opNumber i).isLt (by decide) (lenOperand i).isLt, word_toNat (encode i), opField_encode,
    rsvField_encode, lenField_encode]
  rfl

/-- The word of a command with the length operand that its LEN field stands for. -/
theorem decode_wordOfFields {i : Instr} (h : i.wf = true) {op len : Nat} (hop : op = (opNumber i).toNat)
    (hlen : len = (lenOperand i).toNat) : decode (wordOfFields op 0 len) = .ok i := by
  rw [hop, hlen, wordOfFields_eq_encode, decode_encode h]

/-! ## Illegal words -/

/-- The fields of a command's word are not illegal (30_encoding.md R77). -/
theorem not_illegalFields_encode (i : Instr) : ¬ illegalFields (opNumber i).toNat 0 (lenOperand i).toNat := by
  cases i <;> simp [illegalFields, opNumber, lenOperand]

theorem not_illegalFields_of_decode {op rsv len : Nat} (hop : op < 16) (hrsv : rsv < 16) (hlen : len < 2 ^ 24)
    {i : Instr} (h : decode (wordOfFields op rsv len) = .ok i) : ¬ illegalFields op rsv len := by
  obtain ⟨ho, hr, hl, -⟩ := fields_of_decode h
  have := not_illegalFields_encode i
  rwa [← ho, ← hl, opField_wordOfFields hop hrsv hlen, lenField_wordOfFields hop hrsv hlen,
    show 0 = rsv by rw [← rsvField_wordOfFields hop hrsv hlen, hr]; rfl] at this

theorem decode_of_illegalFields {op rsv len : Nat} (hop : op < 16) (hrsv : rsv < 16) (hlen : len < 2 ^ 24)
    (h : illegalFields op rsv len) : ∃ e, decode (wordOfFields op rsv len) = .error e := by
  cases hd : decode (wordOfFields op rsv len) with
  | error e => exact ⟨e, rfl⟩
  | ok i => exact absurd h (not_illegalFields_of_decode hop hrsv hlen hd)

end Sys2Proof

namespace Sys2Proof.Machine

theorem issueWord_of_decode_error {w : Word} {e : IllegalWord} (h : decode w = .error e) (s : State) :
    issueWord w s = .next (raiseError .illegal 0 0 s) := by
  simp [issueWord, h]

/-- Issuing an illegal word completes with E_ILLEGAL, SUB 0, POS 0 (30_encoding.md R77). -/
theorem issueWord_illegal {op rsv len : Nat} (hop : op < 16) (hrsv : rsv < 16) (hlen : len < 2 ^ 24)
    (h : illegalFields op rsv len) (s : State) :
    ∃ t, issueWord (wordOfFields op rsv len) s = .next t ∧ FailedWith 6 0 0 s t := by
  obtain ⟨e, he⟩ := decode_of_illegalFields hop hrsv hlen h
  exact ⟨_, issueWord_of_decode_error he s, failedWith_raiseError .illegal 0 0 s (by decide)⟩

end Sys2Proof.Machine

namespace Sys2Proof.Proofs

open Sys2Proof.Machine

/-- Settles O2: the fields of the encoding are the command's number, 0 and its length operand, which `lenArg` reads back
(`decode_encode`). -/
theorem decodeOfEncodeIsTheCommand : Obligations.DecodeOfEncodeIsTheCommand := by
  unfold Obligations.DecodeOfEncodeIsTheCommand
  exact fun i h => decode_encode h

/-- Settles O1: an illegal word decodes to no command, since a word that decodes has a command's fields; a word that is
not illegal is the word of the command its OP numbers. -/
theorem everyWordDecodesByItsFields : Obligations.EveryWordDecodesByItsFields := by
  unfold Obligations.EveryWordDecodesByItsFields
  intro op rsv len hop hrsv hlen
  refine ⟨fun h => ⟨decode_of_illegalFields hop hrsv hlen h, issueWord_illegal hop hrsv hlen h⟩, fun h => ?_⟩
  simp only [illegalFields, not_or, not_and, Decidable.not_not] at h
  obtain ⟨-, -, rfl, hbare⟩ := h
  have hwf : lenArgOk (lenArg len) = true := lenArgOk_lenArg hlen
  have hl : len = (BitVec.ofNat 24 ((lenArg len).getD 0)).toNat := by
    rw [getD_lenArg, BitVec.toNat_ofNat, Nat.mod_eq_of_lt hlen]
  refine ⟨fun ho => ?_, fun ho => ?_, fun ho => ?_, fun ho => ?_, fun ho => ?_, fun ho => ?_⟩
  · exact decode_wordOfFields (i := .ldalpha) rfl ho (hbare (by omega))
  · exact decode_wordOfFields (i := .lddef) rfl ho (hbare (by omega))
  · exact decode_wordOfFields (i := .encbuf (lenArg len)) hwf ho hl
  · exact decode_wordOfFields (i := .encint (lenArg len)) hwf ho hl
  · exact decode_wordOfFields (i := .decbuf (lenArg len)) hwf ho hl
  · exact decode_wordOfFields (i := .decint) rfl ho (hbare (by omega))

/-- Settles O3: a word is its three fields, and those of a word that decodes are the command's (`decode_eq_ok_iff`). -/
theorem encodeOfDecodeIsTheWord : Obligations.EncodeOfDecodeIsTheWord := by
  unfold Obligations.EncodeOfDecodeIsTheWord
  exact fun w i h => decode_eq_ok_iff.mp h

/-- Settles O7: a word that is not illegal has an OP of O1's list, and the step that issues an illegal word is
`issueWord`. -/
theorem illegalWordsCompleteWithIllegal : Obligations.IllegalWordsCompleteWithIllegal := by
  unfold Obligations.IllegalWordsCompleteWithIllegal
  intro op rsv len hop hrsv hlen
  refine ⟨fun h => ?_, fun h s rest hq => ?_⟩
  · obtain ⟨h1, h2, h3, h4, h5, h6⟩ := (everyWordDecodesByItsFields op rsv len hop hrsv hlen).2 h
    have hcases : op = 1 ∨ op = 2 ∨ op = 3 ∨ op = 4 ∨ op = 5 ∨ op = 6 := by
      unfold illegalFields at h
      omega
    rcases hcases with ho | ho | ho | ho | ho | ho
    · exact ⟨_, h1 ho⟩
    · exact ⟨_, h2 ho⟩
    · exact ⟨_, h3 ho⟩
    · exact ⟨_, h4 ho⟩
    · exact ⟨_, h5 ho⟩
    · exact ⟨_, h6 ho⟩
  · rw [step_cons hq]
    exact issueWord_illegal hop hrsv hlen h _

/-- Settles O4: the decoder, evaluated on the ten words. -/
theorem documentedWordsDecode : Obligations.DocumentedWordsDecode := by
  unfold Obligations.DocumentedWordsDecode
  decide

end Sys2Proof.Proofs
end

section
/-! The obligations of spec/30_encoding.md on what a command reads and writes (R72), and on `src.dst` (R81). -/

namespace Sys2Proof.Machine

/-! ## What a command writes -/

theorem CommandEnd.frame_codec {i : Instr} {s t : State} (h : CommandEnd i s t) (hi : i = .ldalpha ∨ i = .lddef) :
    t = { s with lut := t.lut, rlut := t.rlut, status := t.status, errInfo := t.errInfo } := by
  cases h with
  | failed => rfl
  | constructed lut => exact frame_loadCodec lut s
  | output _ ho => rcases hi with rfl | rfl <;> simp at ho
  | integer _ hint => rcases hi with rfl | rfl <;> cases hint

theorem CommandEnd.frame_output {i : Instr} {s t : State} (h : CommandEnd i s t)
    (hi : ∃ len, i = .encbuf len ∨ i = .encint len ∨ i = .decbuf len) :
    t = { s with dst := t.dst, outLen := t.outLen, status := t.status, errInfo := t.errInfo } ∧
      ∀ k, t.outLen.toNat ≤ k → t.dst.read k = s.dst.read k := by
  cases h with
  | failed => exact ⟨rfl, fun _ _ => rfl⟩
  | constructed _ hc => rcases hc with rfl | rfl <;> simp at hi
  | output out _ hl =>
    refine ⟨frame_writeOutput out s, fun k hk => Memory.read_writeList_above _ _ _ _ ?_⟩
    rw [(dstHolds_writeOutput (lt_of_le_of_lt hl Config.nbuf_lt)).1] at hk
    omega
  | integer _ hint =>
    subst hint
    simp at hi

theorem CommandEnd.frame_decint {s t : State} (h : CommandEnd .decint s t) :
    t = { s with intOut := t.intOut, status := t.status, errInfo := t.errInfo } := by
  cases h with
  | failed | integer => rfl
  | constructed _ hc => simp at hc
  | output _ ho => simp at ho

/-! ## What a command reads -/

/-- The kind of result each command finds; `commandResult_fits` ties it to the commands. -/
def Result.Fits : Instr → Result → Prop
  | .ldalpha, r | .lddef, r => ∃ lut, r = .codec lut
  | .encbuf _, r | .encint _, r | .decbuf _, r => ∃ out, r = .output out
  | .decint, r => ∃ v, r = .integer v

theorem bind_eq_ok {α β : Type} {x : Except Stop α} {f : α → Except Stop β} {b : β} :
    (x >>= f) = .ok b ↔ ∃ a, x = .ok a ∧ f a = .ok b := by
  cases x <;> simp

theorem commandResult_fits {i : Instr} {s : State} {r : Result} (h : commandResult s i = .ok r) : r.Fits i := by
  cases i with
  | ldalpha =>
    simp only [commandResult, bind_eq_ok] at h
    obtain ⟨-, -, -, -, cs, -, ⟨⟩⟩ := h
    exact ⟨_, rfl⟩
  | lddef =>
    cases h
    exact ⟨_, rfl⟩
  | encbuf | decbuf =>
    simp only [commandResult, bind_eq_ok] at h
    obtain ⟨-, -, cs, -, -, -, ⟨⟩⟩ := h
    exact ⟨_, rfl⟩
  | encint =>
    simp only [commandResult, bind_eq_ok] at h
    obtain ⟨-, -, -, -, ⟨⟩⟩ := h
    exact ⟨_, rfl⟩
  | decint =>
    simp only [commandResult, bind_eq_ok] at h
    obtain ⟨-, -, cs, -, acc, -, ⟨⟩⟩ := h
    exact ⟨_, rfl⟩

@[simp] theorem Result.status_complete_store (r : Result) (s : State) :
    (complete (r.store s)).status = statusOnSuccess s.status := by
  cases r <;> rfl

/-- A command that finds its operands the same in two states ends both with the same code and ERR_INFO, and a success
stores one result in both. -/
theorem SameOperands.exec_next {i : Instr} {s s' t : State} (h : SameOperands s s' i) (ht : exec i s = .next t) :
    ∃ t', exec i s' = .next t' ∧ statusCode t'.status = statusCode t.status ∧ t'.errInfo = t.errInfo ∧
      (statusCode t.status = 0 → ∃ r : Result, r.Fits i ∧ t = complete (r.store s) ∧ t' = complete (r.store s')) := by
  rw [exec_eq_endCommand] at ht
  rw [exec_eq_endCommand, h.commandResult_eq]
  cases hr : commandResult s i with
  | ok r =>
    rw [hr] at ht
    cases ht
    exact ⟨_, rfl, by simp, rfl, fun _ => ⟨r, commandResult_fits hr, rfl, rfl⟩⟩
  | error stop =>
    rw [hr] at ht
    cases stop with
    | raise e sub pos =>
      cases ht
      exact ⟨_, rfl, by simp, rfl, by simp⟩
    | unwritten k => cases ht

/-- An output stored in two states reads alike below OUT_LEN. -/
theorem sameOutput_of_fits {s s' t t' : State} {i : Instr}
    (h : ∃ r : Result, r.Fits i ∧ t = complete (r.store s) ∧ t' = complete (r.store s'))
    (hi : ∃ len, i = .encbuf len ∨ i = .encint len ∨ i = .decbuf len) :
    t'.outLen = t.outLen ∧ ∀ k, k < t.outLen.toNat → t'.dst.read k = t.dst.read k := by
  obtain ⟨r, hr, rfl, rfl⟩ := h
  obtain ⟨out, rfl⟩ : ∃ out, r = .output out := by
    obtain ⟨len, rfl | rfl | rfl⟩ := hi <;> exact hr
  refine ⟨rfl, fun k hk => ?_⟩
  have hk : k < out.length := lt_of_lt_of_le hk (by simpa [Result.store] using Nat.mod_le _ _)
  simp [Result.store, Memory.read_writeList_zero, hk]

/-! ## The pseudo-instruction `src.dst` -/

theorem output_of_dstHolds {s : State} {out : List Cell} (h : s.dstHolds out) : s.output = some out := by
  obtain ⟨hlen, hread⟩ := h
  have hmap : (List.range out.length).map s.dst.read = out.map some :=
    List.ext_getElem (by simp) fun k hk _ => by
      have hk : k < out.length := by simpa using hk
      simp [hread k hk, hk]
  calc s.output = ((List.range out.length).map s.dst.read).mapM id := by
        rw [List.mapM_map, State.output, hlen]
        rfl
    _ = some out := by
        rw [hmap, List.mapM_map]
        exact List.mapM_pure.trans (by simp)

/-- A run of the machine, `Host.Core.run core`, at the machine's own types. -/
def steps (n : Nat) (s : State) : Host.Outcome State Fault Refusal := Host.Core.run core n s

theorem run_succ_of_step {M : Host.Core} {s t : M.State} (h : M.step s = .next t) (n : Nat) :
    M.run (n + 1) s = M.run n t := by
  rw [Host.Core.run, h]

theorem steps_succ {s t : State} (h : step s = .next t) (n : Nat) : steps (n + 1) s = steps n t :=
  run_succ_of_step (M := core) h n

theorem step_writeSrc {s : State} {k : Nat} {v : Cell} {rest : List HostAction}
    (hq : s.host = .writeSrc k v.toNat :: rest) (hk : k < Config.nbuf) :
    step s = .next { s with host := rest, src := s.src.write k v } := by
  rw [step_cons hq, hostAct, hostWriteSrc_of_lt hk v.isLt, BitVec.ofNat_toNat, BitVec.setWidth_eq]

theorem step_writeSrcLen {s : State} {v : Nat} {rest : List HostAction} (hq : s.host = .writeReg .srcLen v :: rest)
    (hv : v < 2 ^ 24) : step s = .next { s with host := rest, srcLen := BitVec.ofNat 24 v } :=
  (step_cons hq).trans (if_pos hv)

/-- Running the writes of a list of cells, with other actions after them. -/
theorem steps_writeSrcActions {vs : List Cell} {k n : Nat} {rest : List HostAction} {s : State}
    (hq : s.host = writeSrcActions k (vs.map BitVec.toNat) ++ rest) (hk : k + vs.length ≤ Config.nbuf) :
    steps ((writeSrcActions k (vs.map BitVec.toNat)).length + n) s =
      steps n { s with host := rest, src := s.src.writeList k vs } := by
  induction vs generalizing k s with
  | nil =>
    have hs : s = { s with host := rest } := by rw [← show s.host = rest from hq]
    rw [List.map_nil, writeSrcActions, List.length_nil, Nat.zero_add, Memory.writeList, ← hs]
  | cons v vs ih =>
    rw [List.length_cons] at hk
    rw [List.map_cons, writeSrcActions, List.length_cons, Nat.add_right_comm,
      steps_succ (step_writeSrc hq (by omega)), ih rfl (by omega), Memory.writeList]

/-- Running `src.bytes`: the cells are written from index 0 on, and SRC_LEN is their number. -/
theorem steps_srcBytes {vs : List Cell} {rest : List HostAction} {s : State}
    (hq : s.host = srcBytes (vs.map BitVec.toNat) ++ rest) (hl : vs.length ≤ Config.nbuf) :
    steps (srcBytes (vs.map BitVec.toNat)).length s =
      .next { s with host := rest, src := s.src.writeList 0 vs, srcLen := BitVec.ofNat 24 vs.length } := by
  have hlen : vs.length < 2 ^ 24 := lt_of_le_of_lt hl Config.nbuf_lt
  rw [srcBytes, List.append_assoc] at hq
  rw [srcBytes, List.length_append, steps_writeSrcActions hq (by omega), List.length_map, List.length_singleton]
  exact steps_succ (step_writeSrcLen rfl hlen) 0

end Sys2Proof.Machine

namespace Sys2Proof.Proofs

open Sys2Proof.Machine

/-- Settles O47: the frame of each form of a command's next state. -/
theorem commandsWriteOnlyTheirResults : Obligations.CommandsWriteOnlyTheirResults := by
  unfold Obligations.CommandsWriteOnlyTheirResults
  intro s t
  refine ⟨?_, fun len => ?_, fun h => (exec_next h).frame_decint⟩
  · rintro (h | h)
    · exact (exec_next h).frame_codec (.inl rfl)
    · exact (exec_next h).frame_codec (.inr rfl)
  · rintro (h | h | h)
    · exact (exec_next h).frame_output ⟨len, .inl rfl⟩
    · exact (exec_next h).frame_output ⟨len, .inr (.inl rfl)⟩
    · exact (exec_next h).frame_output ⟨len, .inr (.inr rfl)⟩

/-- Settles O50: a command finds its result from its operands alone, and stores it alike in both states
(`SameOperands.exec_next`). -/
theorem commandsReadOnlyTheirOperands : Obligations.CommandsReadOnlyTheirOperands := by
  unfold Obligations.CommandsReadOnlyTheirOperands
  intro s s' t
  refine ⟨fun hlen hcells => ?_, fun len hint hlut ht => ?_, fun ht => ?_⟩
  · have hin : SameInput s s' := ⟨hlen.symm, fun k hk => (hcells k hk).symm⟩
    refine ⟨fun ht => ?_, fun len hlut ht => ?_, fun bytes hrlut ht => ?_, fun hrlut ht => ?_⟩
    · obtain ⟨t', ht', hcode, hinfo, hres⟩ := SameOperands.exec_next (i := .ldalpha) hin ht
      refine ⟨t', ht', hcode, hinfo, fun hc => ?_⟩
      obtain ⟨r, ⟨lut, rfl⟩, rfl, rfl⟩ := hres hc
      exact ⟨rfl, rfl⟩
    · obtain ⟨t', ht', hcode, hinfo, hres⟩ := SameOperands.exec_next (i := .encbuf len) ⟨hin, hlut.symm⟩ ht
      exact ⟨t', ht', hcode, hinfo, fun hc => sameOutput_of_fits (hres hc) ⟨len, .inl rfl⟩⟩
    · obtain ⟨t', ht', hcode, hinfo, hres⟩ := SameOperands.exec_next (i := .decbuf bytes) ⟨hin, hrlut.symm⟩ ht
      exact ⟨t', ht', hcode, hinfo, fun hc => sameOutput_of_fits (hres hc) ⟨bytes, .inr (.inr rfl)⟩⟩
    · obtain ⟨t', ht', hcode, hinfo, hres⟩ := SameOperands.exec_next (i := .decint) ⟨hin, hrlut.symm⟩ ht
      refine ⟨t', ht', hcode, hinfo, fun hc => ?_⟩
      obtain ⟨r, ⟨v, rfl⟩, rfl, rfl⟩ := hres hc
      rfl
  · obtain ⟨t', ht', hcode, hinfo, hres⟩ :=
      SameOperands.exec_next (i := .encint len) ⟨hint.symm, hlut.symm⟩ ht
    exact ⟨t', ht', hcode, hinfo, fun hc => sameOutput_of_fits (hres hc) ⟨len, .inr (.inl rfl)⟩⟩
  · cases ht
    exact ⟨_, rfl, by simp, rfl, rfl, rfl⟩

/-- Settles O12: the expansion is `src.bytes` of the output, whose writes run one after the other. -/
theorem srcDstCopiesTheOutput : Obligations.SrcDstCopiesTheOutput := by
  unfold Obligations.SrcDstCopiesTheOutput
  intro s out rest hout hl
  have hlen : BitVec.ofNat 24 out.length = s.outLen := by rw [← hout.1, BitVec.ofNat_toNat, BitVec.setWidth_eq]
  have hexpand : srcDst s = some (srcBytes (out.map BitVec.toNat)) := by rw [srcDst, output_of_dstHolds hout]; rfl
  have hrun := steps_srcBytes (s := { s with host := srcBytes (out.map BitVec.toNat) ++ rest }) rfl hl
  refine ⟨_, _, hexpand, hrun, ⟨?_, fun k hk => ?_⟩, fun k hk => ?_, ?_⟩
  · rw [hlen, hout.1]
  · simp [Memory.read_writeList_zero, hk]
  · exact Memory.read_writeList_above _ _ _ _ (by omega)
  · rw [hlen]

end Sys2Proof.Proofs
end

section
/-! The obligations of spec/30_encoding.md on the assembler (R80). -/

namespace Sys2Proof.Machine

/-! ## Digits -/

theorem toLower_digitChar {d : Nat} (h : d < 16) : (Nat.digitChar d).toLower = Nat.digitChar d := by
  decide +revert

theorem isAlpha_digitChar {d : Nat} (h : d < 10) : (Nat.digitChar d).isAlpha = false := by
  decide +revert

/-- The code of a digit character (30_encoding.md R80; ASCII, log 16). -/
theorem toNat_digitChar {d : Nat} (h : d < 16) : (Nat.digitChar d).toNat = if d < 10 then 0x30 + d else 0x57 + d := by
  decide +revert

/-- A decimal digit is the lower case of itself alone. -/
theorem eq_digitChar_of_toLower {c : Char} {d : Nat} (hd : d < 10) (h : c.toLower = Nat.digitChar d) :
    c = Nat.digitChar d := by
  have hc : c.isAlpha = false := by rw [← Char.isAlpha_toLower_eq_isAlpha, h, isAlpha_digitChar hd]
  rw [Char.isAlpha, Bool.or_eq_false_iff] at hc
  rwa [Char.toLower_eq_of_not_isUpper (by simp [hc.1])] at h

/-- The digits of a base up to 16 are its digit characters, a letter in either case. -/
theorem digitValue_eq_some {base d : Nat} {c : Char} (hb : base ≤ 16) :
    digitValue base c = some d ↔ d < base ∧ c.toLower = Nat.digitChar d := by
  have hcode (hd : d < base) :
      c.toLower = Nat.digitChar d ↔ c.toLower.toNat = if d < 10 then 0x30 + d else 0x57 + d := by
    rw [← Char.toNat_inj, toNat_digitChar (by omega)]
  rw [and_congr_right hcode]
  simp only [digitValue, Option.ite_none_right_eq_some, Option.some.injEq]
  split_ifs <;> omega

/-! ## Numbers -/

/-- A list of digits is read onto the value read so far. -/
theorem readDigits_eq_some {base : Nat} (hb : base ≤ 16) {cs : List Char} {acc n : Nat} :
    readDigits base cs acc = some n ↔
      ∃ ds : List Nat, (∀ d ∈ ds, d < base) ∧ cs.map Char.toLower = ds.map Nat.digitChar ∧
        n = acc * base ^ ds.length + beval base ds := by
  induction cs generalizing acc with
  | nil => simp [readDigits, eq_comm]
  | cons c cs ih =>
    constructor
    · intro h
      rw [readDigits] at h
      split at h
      · cases h
      · rename_i v hv
        obtain ⟨hlt, hc⟩ := (digitValue_eq_some hb).mp hv
        obtain ⟨ds, hds, hcs, rfl⟩ := ih.mp h
        refine ⟨v :: ds, List.forall_mem_cons.mpr ⟨hlt, hds⟩, by simp [hc, hcs], ?_⟩
        rw [beval_cons, List.length_cons]
        ring
    · rintro ⟨ds, hds, hcs, rfl⟩
      cases ds with
      | nil => cases hcs
      | cons d ds =>
        obtain ⟨hlt, hds⟩ := List.forall_mem_cons.mp hds
        obtain ⟨hc, hcs⟩ := List.cons.inj hcs
        rw [readDigits, (digitValue_eq_some hb).mpr ⟨hlt, hc⟩]
        refine ih.mpr ⟨ds, hds, hcs, ?_⟩
        rw [beval_cons, List.length_cons]
        ring

/-- Only decimal digits are read in base 10, where a letter's case does not come in. -/
theorem map_toLower_decimal {cs : List Char} {ds : List Nat} (h : ∀ d ∈ ds, d < 10) :
    cs.map Char.toLower = ds.map Nat.digitChar ↔ cs = ds.map Nat.digitChar := by
  constructor
  · intro hcs
    induction cs generalizing ds with
    | nil => exact hcs
    | cons c cs ih =>
      cases ds with
      | nil => cases hcs
      | cons d ds =>
        obtain ⟨hd, hds⟩ := List.forall_mem_cons.mp h
        obtain ⟨hc, hcs⟩ := List.cons.inj hcs
        rw [eq_digitChar_of_toLower hd hc, ih hds hcs, List.map_cons]
  · rintro rfl
    rw [List.map_map]
    exact List.map_congr_left fun d hd => toLower_digitChar (lt_trans (h d hd) (by decide))

theorem readNumber_hex {cs : List Char} (h : cs ≠ []) : readNumber ('0' :: 'x' :: cs) = readDigits 16 cs 0 := by
  cases cs with
  | nil => exact absurd rfl h
  | cons c cs => rfl

theorem readNumber_decimal {cs : List Char} (h : cs ≠ []) (hx : ∀ rest, cs ≠ '0' :: 'x' :: rest) :
    readNumber cs = readDigits 10 cs 0 := by
  unfold readNumber
  split
  · exact absurd rfl h
  · exact absurd rfl (hx _)
  · exact absurd rfl (hx _)
  · rfl

theorem readNumber_cases {cs : List Char} {n : Nat} (h : readNumber cs = some n) :
    (cs ≠ [] ∧ readDigits 10 cs 0 = some n) ∨
      ∃ digits, digits ≠ [] ∧ cs = '0' :: 'x' :: digits ∧ readDigits 16 digits 0 = some n := by
  unfold readNumber at h
  split at h
  · cases h
  · cases h
  · exact .inr ⟨_, List.cons_ne_nil _ _, rfl, h⟩
  · rename_i hne _ _
    exact .inl ⟨hne, h⟩

/-- No list of decimal digits begins with the marker `0x`. -/
theorem decimal_ne_hex {ds : List Nat} (h : ∀ d ∈ ds, d < 10) (rest : List Char) :
    ds.map Nat.digitChar ≠ '0' :: 'x' :: rest := by
  intro heq
  have hx : 'x' ∈ ds.map Nat.digitChar := by simp [heq]
  obtain ⟨d, hd, hc⟩ := List.mem_map.mp hx
  have := isAlpha_digitChar (h d hd)
  rw [hc] at this
  exact absurd this (by decide)

theorem readNumber_decimal_digits {ds : List Nat} (hne : ds ≠ []) (h : ∀ d ∈ ds, d < 10) :
    readNumber (ds.map Nat.digitChar) = some (beval 10 ds) := by
  rw [readNumber_decimal (by simpa using hne) (decimal_ne_hex h), readDigits_eq_some (by decide)]
  exact ⟨ds, h, (map_toLower_decimal h).mpr rfl, by simp⟩

theorem readNumber_hex_digits {ds : List Nat} {cs : List Char} (hne : ds ≠ []) (h : ∀ d ∈ ds, d < 16)
    (hcs : cs.map Char.toLower = ds.map Nat.digitChar) : readNumber ('0' :: 'x' :: cs) = some (beval 16 ds) := by
  have hcs' : cs ≠ [] := by
    rintro rfl
    exact hne (List.map_eq_nil_iff.mp hcs.symm)
  rw [readNumber_hex hcs', readDigits_eq_some (by decide)]
  exact ⟨ds, h, hcs, by simp⟩

/-! ## Command lines -/

theorem mnemonicOf_eq_none {name : List Char} (h : name.map Char.toLower ∉ mnemonicTable.map Prod.fst) :
    mnemonicOf name = none := by
  refine List.lookup_eq_none_iff.mpr fun p hp => bne_iff_ne.mpr fun heq => h ?_
  rw [heq]
  exact List.mem_map_of_mem hp

theorem assemble_of_mnemonicOf_eq_none {name : List Char} (h : mnemonicOf name = none)
    (operand : Option (List Char)) : assemble name operand = none := by
  rw [assemble, h]

theorem assemble_congr {name name' : List Char} (h : mnemonicOf name = mnemonicOf name')
    (operand : Option (List Char)) : assemble name operand = assemble name' operand := by
  rw [assemble, h, assemble]

theorem assembleLength_of_not_number (f : Option Nat → Instr) {cs : List Char} (h : readNumber cs = none) :
    assembleLength f (some cs) = none := by
  simp [assembleLength, readLength, h]

theorem assembleLength_of_number (f : Option Nat → Instr) {cs : List Char} {n : Nat} (h : readNumber cs = some n) :
    assembleLength f (some cs) = if 1 ≤ n ∧ n < 2 ^ 24 then some (encode (f (some n))) else none := by
  simp only [assembleLength, readLength, h, lenArgOk, Bool.and_eq_true, decide_eq_true_eq]
  split <;> rfl

/-- The three commands with a length operand, on the number `n` (30_encoding.md R80, R74). -/
theorem assembleLength_eq (f : Option Nat → Instr) (op : Nat) {cs : List Char} {n : Nat} (h : readNumber cs = some n)
    (hop : op = (opNumber (f (some n))).toNat) (hlen : lenOperand (f (some n)) = BitVec.ofNat 24 n) :
    (1 ≤ n → n < 2 ^ 24 → assembleLength f (some cs) = some (BitVec.ofNat 32 (n * 256 + op))) ∧
      (n = 0 ∨ 2 ^ 24 ≤ n → assembleLength f (some cs) = none) := by
  rw [assembleLength_of_number f h]
  refine ⟨fun hpos hlt => ?_, fun hn => if_neg (by omega)⟩
  have hn : n = (lenOperand (f (some n))).toNat := by rw [hlen, BitVec.toNat_ofNat, Nat.mod_eq_of_lt hlt]
  rw [if_pos ⟨hpos, hlt⟩, ← wordOfFields_eq_encode, ← hop, ← hn, wordOfFields, Nat.zero_mul, Nat.add_zero]

theorem assembleWord_of_not_number {cs : List Char} (h : readNumber cs = none) : assembleWord (some cs) = none := by
  simp [assembleWord, h]

theorem assembleWord_of_number {cs : List Char} {n : Nat} (h : readNumber cs = some n) :
    assembleWord (some cs) = if n < 2 ^ 32 then some (BitVec.ofNat 32 n) else none := by
  simp [assembleWord, h]

/-! ## Lines -/

/-- The characters of a word are read onto the word so far. -/
theorem lineWords_append {w : List Char} (h : ∀ c ∈ w, c ≠ ' ') (rest cur : List Char) :
    lineWords (w ++ rest) cur = lineWords rest (w.reverse ++ cur) := by
  induction w generalizing cur with
  | nil => rfl
  | cons c w ih =>
    obtain ⟨hc, hw⟩ := List.forall_mem_cons.mp h
    rw [List.cons_append, lineWords, if_neg hc, ih hw, List.reverse_cons, List.append_assoc, List.singleton_append]

theorem lineWords_spaces (n : Nat) (rest : List Char) :
    lineWords (List.replicate n ' ' ++ rest) [] = lineWords rest [] := by
  induction n with
  | zero => rfl
  | succ n ih => exact ih

/-- A line of one word. -/
theorem lineWords_word {w : List Char} (hne : w ≠ []) (h : ∀ c ∈ w, c ≠ ' ') : lineWords w [] = [w] := by
  have := lineWords_append h [] []
  rw [List.append_nil, List.append_nil] at this
  simp [this, lineWords, hne]

/-- A word that spaces end. -/
theorem lineWords_word_spaces {w : List Char} (hne : w ≠ []) (h : ∀ c ∈ w, c ≠ ' ') (n : Nat) (rest : List Char) :
    lineWords (w ++ List.replicate (n + 1) ' ' ++ rest) [] = w :: lineWords rest [] := by
  rw [List.append_assoc, lineWords_append h, List.append_nil, List.replicate_succ, List.cons_append, lineWords,
    if_pos rfl, if_neg (by simpa using hne), List.reverse_reverse, lineWords_spaces]

/-- A semicolon and what follows it is no part of the line's words (30_encoding.md R80). -/
theorem assembleLine_comment (line comment : List Char) :
    assembleLine (line ++ ';' :: comment) = assembleLine line := by
  have hcode : (line ++ ';' :: comment).takeWhile (· ≠ ';') = line.takeWhile (· ≠ ';') := by
    induction line with
    | nil => rfl
    | cons c cs ih => simp only [List.cons_append, List.takeWhile_cons, ih]
  rw [assembleLine, hcode, assembleLine]

theorem takeWhile_ne_semicolon {line : List Char} (h : ∀ c ∈ line, c ≠ ';') : line.takeWhile (· ≠ ';') = line := by
  simpa [List.takeWhile_eq_self_iff] using h

theorem assembleLine_nothing {line : List Char} (h : ∀ c ∈ line, c ≠ ';') (hw : lineWords line [] = []) :
    assembleLine line = .nothing := by
  rw [assembleLine, takeWhile_ne_semicolon h, hw]

theorem assembleLine_name {line name : List Char} (h : ∀ c ∈ line, c ≠ ';') (hw : lineWords line [] = [name]) :
    assembleLine line = (assemble name none).elim .error .word := by
  rw [assembleLine, takeWhile_ne_semicolon h, hw]
  dsimp only
  cases assemble name none <;> rfl

theorem assembleLine_operand {line name operand : List Char} (h : ∀ c ∈ line, c ≠ ';')
    (hw : lineWords line [] = [name, operand]) :
    assembleLine line = (assemble name (some operand)).elim .error .word := by
  rw [assembleLine, takeWhile_ne_semicolon h, hw]
  dsimp only
  cases assemble name (some operand) <;> rfl

end Sys2Proof.Machine

namespace Sys2Proof.Proofs

open Sys2Proof.Machine

/-- Settles O55: `readNumber` reads in base 10 or, after `0x`, in base 16 (`readNumber_cases`), and what is read is a list
of digits with its positional value (`readDigits_eq_some`). -/
theorem onlyDecimalAndHexadecimalTextsAreNumbers : Obligations.OnlyDecimalAndHexadecimalTextsAreNumbers := by
  unfold Obligations.OnlyDecimalAndHexadecimalTextsAreNumbers
  intro cs n h
  rcases readNumber_cases h with ⟨hne, hread⟩ | ⟨digits, hne, rfl, hread⟩
  · obtain ⟨ds, hds, hcs, rfl⟩ := (readDigits_eq_some (by decide)).mp hread
    have hcs := (map_toLower_decimal hds).mp hcs
    refine .inl ⟨ds, ?_, hds, hcs, by simp⟩
    rintro rfl
    exact hne hcs
  · obtain ⟨ds, hds, hcs, rfl⟩ := (readDigits_eq_some (by decide)).mp hread
    refine .inr ⟨ds, digits, ?_, hds, rfl, hcs, by simp⟩
    rintro rfl
    exact hne (List.map_eq_nil_iff.mp hcs)

/-- Settles O56: the words of each form of line, and what `assembleLine` makes of no word, one and two. -/
theorem linesAssembleToTheirCommand : Obligations.LinesAssembleToTheirCommand := by
  unfold Obligations.LinesAssembleToTheirCommand
  refine ⟨assembleLine_comment, fun n => ?_, fun name hne hname => ⟨?_, fun operand n hne' hoperand => ?_⟩⟩
  · refine assembleLine_nothing (fun c hc => ?_) ?_
    · rw [List.eq_of_mem_replicate hc]
      decide
    · rw [← List.append_nil (List.replicate n ' '), lineWords_spaces, lineWords]
      rfl
  · exact assembleLine_name (fun c hc => (hname c hc).2) (lineWords_word hne fun c hc => (hname c hc).1)
  · refine assembleLine_operand (fun c hc => ?_) ?_
    · rcases List.mem_append.mp hc with hc | hc
      · rcases List.mem_append.mp hc with hc | hc
        · exact (hname c hc).2
        · rw [List.eq_of_mem_replicate hc]
          decide
      · exact (hoperand c hc).2
    · rw [lineWords_word_spaces hne (fun c hc => (hname c hc).1) n,
        lineWords_word hne' fun c hc => (hoperand c hc).1]

/-- Settles O13: the names are evaluated; an operand is read as a number first, and a number in `1..2^24-1` gives the
word with that LEN (`assembleLength_eq`). -/
theorem assemblerEmitsTheCommandWords : Obligations.AssemblerEmitsTheCommandWords := by
  unfold Obligations.AssemblerEmitsTheCommandWords
  refine ⟨by decide, fun cs => ⟨rfl, rfl, rfl, fun h => ?_, fun n h => ?_⟩, fun ds hne => ⟨?_, ?_⟩,
    fun name name' operand h => ?_, fun operand => ⟨rfl, rfl, rfl, rfl⟩,
    ⟨rfl, fun _ => congrArg some (by decide : encode .ldalpha = 1)⟩,
    fun name operand h => ?_⟩
  · exact ⟨assembleLength_of_not_number .encbuf h, assembleLength_of_not_number .encint h,
      assembleLength_of_not_number .decbuf h, assembleWord_of_not_number h⟩
  · obtain ⟨encbuf, encbuf'⟩ := assembleLength_eq .encbuf 3 h rfl rfl
    obtain ⟨encint, encint'⟩ := assembleLength_eq .encint 4 h rfl rfl
    obtain ⟨decbuf, decbuf'⟩ := assembleLength_eq .decbuf 5 h rfl rfl
    refine ⟨fun hpos hlt => ⟨encbuf hpos hlt, encint hpos hlt, decbuf hpos hlt⟩,
      fun hn => ⟨encbuf' hn, encint' hn, decbuf' hn⟩, fun hlt => ?_, fun hge => ?_⟩
    · exact (assembleWord_of_number h).trans (if_pos hlt)
    · exact (assembleWord_of_number h).trans (if_neg (Nat.not_lt.mpr hge))
  · exact readNumber_decimal_digits hne
  · exact fun h cs => readNumber_hex_digits hne h
  · exact assemble_congr (by rw [mnemonicOf, h, mnemonicOf]) operand
  · exact assemble_of_mnemonicOf_eq_none (mnemonicOf_eq_none h) operand

end Sys2Proof.Proofs
end

section
/-! The obligations of spec/40_construction.md: what LDALPHA answers on every written input, the first failing cell of
the commands that check SRC, LDDEF, and which steps write the codec. -/

namespace Sys2Proof.Machine

/-! ## The loaded alphabet -/

/-- The characters are used in the order supplied (40_construction.md R105). -/
theorem Alphabet.getElem?_of_ofCells {cs : List Cell} (hl : cs.length = 64) (d : Digit) :
    cs[d.toNat]? = some ((Alphabet.ofCells cs).char d) := by
  have hd : d.toNat < cs.length := hl ▸ d.isLt
  rw [Alphabet.char_ofCells, List.getD_eq_getElem _ _ hd, List.getElem?_eq_getElem hd]

/-- The table of codes and the closed form of the default alphabet agree (40_construction.md R101). -/
theorem toNat_char_defaultAlphabet (d : Digit) : (defaultAlphabet.char d).toNat = defaultCode d.toNat := by
  decide +revert +kernel

/-- RLUT is loaded as the reverse of LUT, in one command (10_state.md R22, R23). -/
theorem reverseOf_loadCodec {lut : Alphabet} (h : ∀ d e, lut.char d = lut.char e → d = e) (s : State) :
    ReverseOf (complete (loadCodec lut s)).lut (complete (loadCodec lut s)).rlut := by
  rw [complete_lut, loadCodec_lut, complete_rlut, loadCodec_rlut]
  exact reverseOf_deriveRlut h

/-! ## The failures of LDALPHA, in the order of its checks -/

theorem execLdalpha_of_capacity {s : State} (h : Config.nbuf < s.srcLen.toNat) :
    execLdalpha s = .next (raiseError .capacity 1 0 s) := by
  rw [execLdalpha, ldalphaCommand_eq, if_neg (Nat.not_le.mpr h), endCommand_raise]

theorem execLdalpha_of_length {s : State} (hn : s.srcLen.toNat ≤ Config.nbuf) (hl : s.srcLen.toNat ≠ 64) :
    execLdalpha s = .next (raiseError .alphabet 1 s.srcLen.toNat s) := by
  rw [execLdalpha, ldalphaCommand_eq, if_pos hn, if_neg hl, endCommand_raise]

/-- The first repeat is reported whatever the cells after it hold. -/
theorem execLdalpha_of_repeat {s : State} {cs : List Cell} {c : Cell} (hs : s.srcLen.toNat = 64)
    (hl : cs.length < s.srcLen.toNat) (hr : ∀ k, k < cs.length → s.src.read k = cs[k]?) (hd : cs.Nodup)
    (hk : s.src.read cs.length = some c) (hm : c ∈ cs) :
    execLdalpha s = .next (raiseError .alphabet 2 cs.length s) := by
  have hf : repeatCheck cs.reverse cs.length c = some (.raise .alphabet 2 cs.length) :=
    if_pos (List.mem_reverse.mpr hm)
  rw [execLdalpha, ldalphaCommand_eq, if_pos (hs ▸ Config.nbuf_ge), if_pos hs,
    scanSrc_raise hl hr ((repeatCheck_none_iff_nodup cs).mpr hd) hk hf, error_bind, endCommand_raise]

/-- What SRC holds before an index of the input. -/
theorem State.srcHolds.read_take {s : State} {cs : List Cell} (h : s.srcHolds cs) (k : Nat) :
    ∀ j, j < (cs.take k).length → s.src.read j = (cs.take k)[j]? := by
  intro j hj
  obtain ⟨hjk, hjl⟩ := Nat.lt_min.mp (List.length_take ▸ hj)
  rw [h.2 j hjl, List.getElem?_take_of_lt hjk]

/-- Of a list with a repeat, an index is the first that repeats an earlier one. -/
theorem exists_first_repeat {cs : List Cell} (h : ¬ cs.Nodup) :
    ∃ k c, (cs.take k).Nodup ∧ cs[k]? = some c ∧ c ∈ cs.take k := by
  induction cs using List.reverseRecOn with
  | nil => exact absurd List.nodup_nil h
  | append_singleton cs x ih =>
    by_cases hd : cs.Nodup
    · have hx : x ∈ cs := by
        by_contra hx
        exact h (List.concat_eq_append ▸ hd.concat hx)
      exact ⟨cs.length, x, by simpa using hd, by simp, by simpa using hx⟩
    · obtain ⟨k, c, htake, hk, hm⟩ := ih hd
      obtain ⟨hlt, -⟩ := List.getElem?_eq_some_iff.mp hk
      rw [← List.take_append_of_le_length hlt.le (l₂ := [x])] at htake hm
      exact ⟨k, c, htake, by rw [List.getElem?_append_left hlt, hk], hm⟩

/-! ## The first invalid character -/

section
variable {s : State} {cs : List Cell} {c : Cell} (hl : cs.length < s.srcLen.toNat)
  (hr : ∀ k, k < cs.length → s.src.read k = cs[k]?) (hk : s.src.read cs.length = some c)
  (hv : ∀ x ∈ cs, (s.rlut.entry x).valid = true) (hbad : (s.rlut.entry c).valid = false)
include hl hr hk hv hbad

theorem scanSrc_of_invalid : scanSrc (decodeCheck s.rlut) s = .error (.raise .decode 0 cs.length) :=
  scanSrc_raise hl hr (fun _ hj => decodeCheck_eq_none.mpr (hv _ (List.getElem_mem hj))) hk
    (if_neg (Bool.eq_false_iff.mp hbad))

theorem execDecbuf_of_invalid (hn : s.srcLen.toNat ≤ Config.nbuf) (bytes : Option Nat) :
    execDecbuf bytes s = .next (raiseError .decode 0 cs.length s) := by
  rw [execDecbuf, decbufCommand_eq, if_pos hn, scanSrc_of_invalid hl hr hk hv hbad, error_bind, endCommand_raise]

theorem execDecint_of_invalid (hn : s.srcLen.toNat ≤ Config.nbuf) :
    execDecint s = .next (raiseError .decode 0 cs.length s) := by
  rw [execDecint, decintCommand_eq, if_pos hn, scanSrc_of_invalid hl hr hk hv hbad, error_bind, endCommand_raise]

end

/-! ## Who writes the codec -/

/-- A command keeps LUT and RLUT, or is a construction that succeeded. -/
theorem CommandEnd.codec {i : Instr} {s t : State} (h : CommandEnd i s t) :
    (t.lut = s.lut ∧ t.rlut = s.rlut) ∨ ((i = .ldalpha ∨ i = .lddef) ∧ statusCode t.status = 0) := by
  cases h with
  | failed | output | integer => exact .inl ⟨rfl, rfl⟩
  | constructed lut hi => exact .inr ⟨hi, (succeeded_loadCodec lut s).code⟩

theorem issueWord_codec {w : Word} {s t : State} (h : issueWord w s = .next t) :
    (t.lut = s.lut ∧ t.rlut = s.rlut) ∨
      ((decode w = .ok .ldalpha ∨ decode w = .ok .lddef) ∧ statusCode t.status = 0) := by
  cases hd : decode w with
  | error e =>
    cases (issueWord_of_decode_error hd s).symm.trans h
    exact .inl ⟨rfl, rfl⟩
  | ok i =>
    rw [issueWord_of_decode hd] at h
    simpa using (exec_next h).codec

end Sys2Proof.Machine

namespace Sys2Proof.Proofs

open Sys2Proof.Machine

/-- Settles O16: LDALPHA's success on its input, and one rule per failing check; the input up to the first repeat is
what the scan has read when it stops. -/
theorem ldalphaLoadsOrReportsTheFirstFailure : Obligations.LdalphaLoadsOrReportsTheFirstFailure := by
  unfold Obligations.LdalphaLoadsOrReportsTheFirstFailure
  refine ⟨by decide, fun s => ⟨fun cs h hl hd => ?_, fun hn => ?_, fun hn hl => ?_, fun cs k c h hl hd hk hm => ?_⟩⟩
  · refine ⟨complete (loadCodec (Alphabet.ofCells cs) s), execLdalpha_of_holds h hl hd, fun d => ?_,
      reverseOf_loadCodec (Alphabet.ofCells_distinct hl hd) s, succeeded_loadCodec _ s, frame_loadCodec _ s⟩
    rw [complete_lut, loadCodec_lut, Alphabet.getElem?_of_ofCells hl]
  · exact ⟨_, execLdalpha_of_capacity hn, failedWith_raiseError .capacity 1 0 s (by decide)⟩
  · exact ⟨_, execLdalpha_of_length hn hl, failedWith_raiseError .alphabet 1 _ s s.srcLen.isLt⟩
  · obtain ⟨hlt, rfl⟩ := List.getElem?_eq_some_iff.mp hk
    have hlen : (cs.take k).length = k := List.length_take_of_le hlt.le
    have hs : s.srcLen.toNat = 64 := h.1.trans hl
    have hstop := execLdalpha_of_repeat hs (by omega) (h.read_take k) hd (by rw [hlen, h.2 k hlt, hk]) hm
    rw [hlen] at hstop
    exact ⟨_, hstop, failedWith_raiseError .alphabet 2 k s (by omega)⟩

/-- Settles O17: a valid alphabet is a list of 64 characters without a repeat, which LDALPHA loads by O16; of any other
input either the length or the first repeat is reported. -/
theorem ldalphaSucceedsExactlyOnValidAlphabets : Obligations.LdalphaSucceedsExactlyOnValidAlphabets := by
  unfold Obligations.LdalphaSucceedsExactlyOnValidAlphabets
  intro s cs h hn
  obtain ⟨loads, -, wrongLength, repeats⟩ := ldalphaLoadsOrReportsTheFirstFailure.2 s
  have hvalid : (cs.length = 64 ∧ ∀ i j, i < j → j < 64 → cs[i]? ≠ cs[j]?) ↔ cs.length = 64 ∧ cs.Nodup :=
    and_congr_right fun hl => by rw [List.nodup_iff_getElem?_ne_getElem?, hl]
  rw [hvalid]
  by_cases hl : cs.length = 64
  · by_cases hd : cs.Nodup
    · obtain ⟨t, ht, -, -, hsucc, -⟩ := loads cs h hl hd
      exact ⟨t, ht, fun _ => hsucc.code, fun hinv => absurd ⟨hl, hd⟩ hinv⟩
    · obtain ⟨k, c, htake, hk, hm⟩ := exists_first_repeat hd
      obtain ⟨t, ht, hfail⟩ := repeats cs k c h hl htake hk hm
      exact ⟨t, ht, fun hval => absurd hval.2 hd, fun _ => hfail.code⟩
  · obtain ⟨t, ht, hfail⟩ := wrongLength (h.1 ▸ hn) (h.1 ▸ hl)
    exact ⟨t, ht, fun hval => absurd hval.1 hl, fun _ => hfail.code⟩

/-- Settles O19: of the forms of a step's next state only an issued word and reset can write LUT or RLUT, and an issued
word only as `issueWord_codec` says. -/
theorem onlyConstructionWritesTheCodec : Obligations.OnlyConstructionWritesTheCodec := by
  unfold Obligations.OnlyConstructionWritesTheCodec
  intro s t hst
  cases step_next hst with
  | waited | wroteSrc | wroteReg | read => exact .inl ⟨rfl, rfl⟩
  | completed w rest hq =>
    rw [step_cons hq] at hst
    rcases issueWord_codec hst with hkept | ⟨hd, hcode⟩
    · exact .inl hkept
    · exact .inr (.inr ⟨w, rest, hq, hd, hcode⟩)
  | reset rest hq => exact .inr (.inl ⟨rest, hq⟩)

/-- Settles O57: the scan stops at the first cell that fails and reads none after it. -/
theorem laterCellsDoNotHideTheFirstFailure : Obligations.LaterCellsDoNotHideTheFirstFailure := by
  unfold Obligations.LaterCellsDoNotHideTheFirstFailure
  intro s cs c hr hk hl
  have hpos : cs.length < 2 ^ 24 := hl.trans s.srcLen.isLt
  refine ⟨fun hs hd hm => ?_, fun hn hv hbad => ?_⟩
  · exact ⟨_, execLdalpha_of_repeat hs hl hr hd hk hm, failedWith_raiseError .alphabet 2 _ s hpos⟩
  · have hfail := failedWith_raiseError .decode 0 cs.length s hpos
    exact ⟨fun bytes => ⟨_, execDecbuf_of_invalid hl hr hk hv hbad hn bytes, hfail⟩,
      ⟨_, execDecint_of_invalid hl hr hk hv hbad hn, hfail⟩⟩

/-- Settles O15: the order of the table of codes, and its two ends. -/
theorem defaultAlphabetIsSorted : Obligations.DefaultAlphabetIsSorted := by
  unfold Obligations.DefaultAlphabetIsSorted
  exact ⟨defaultAlphabet_increasing, by decide, by decide⟩

/-- Settles O18: LDDEF loads the default alphabet whatever the state, and reset holds the same codec. -/
theorem lddefRestoresTheDefaultCodec : Obligations.LddefRestoresTheDefaultCodec := by
  unfold Obligations.LddefRestoresTheDefaultCodec
  refine ⟨by decide, fun s => ⟨complete (loadCodec defaultAlphabet s), rfl, toNat_char_defaultAlphabet,
    reverseOf_loadCodec defaultAlphabet_increasing.distinct s, ?_, ?_, succeeded_loadCodec _ s, frame_loadCodec _ s⟩⟩
  · rw [complete_lut, loadCodec_lut, State.reset_lut]
  · rw [complete_rlut, loadCodec_rlut, State.reset_rlut]

end Sys2Proof.Proofs
end

section
/-! The obligations of spec/41_encoder.md: what ENCBUF and ENCINT write and when they fail, the default lengths, the
digit datapaths, and the order of the outputs. -/

namespace Sys2Proof.Machine

/-! ## The digits of a value -/

theorem digitAt_eq (v len k : Nat) : digitAt v len k = BitVec.ofNat 6 (v / 64 ^ (len - 1 - k)) := by
  rw [digitAt, Nat.shiftRight_eq_div_pow, Nat.pow_mul]

/-- A digit above the value's bits is 0 (41_encoder.md R124). -/
theorem digitAt_eq_zero {v len k : Nat} (h : v < 64 ^ (len - 1 - k)) : digitAt v len k = 0 := by
  rw [digitAt_eq, Nat.div_eq_of_lt h]
  rfl

/-- One more digit on the right. -/
theorem digitsOf_succ_right (v len : Nat) : digitsOf v (len + 1) = digitsOf (v / 64) len ++ [BitVec.ofNat 6 v] := by
  induction len generalizing v with
  | zero => simp [digitsOf, digitAt]
  | succ len ih =>
    rw [digitsOf_succ v (len + 1), ih, digitsOf_succ (v / 64) len, Nat.div_div_eq_div_mul, ← Nat.pow_succ',
      List.cons_append]

theorem digitsOf_mul_add (v len : Nat) (d : Digit) : digitsOf (64 * v + d.toNat) (len + 1) = digitsOf v len ++ [d] := by
  have hlow : BitVec.ofNat 6 (64 * v + d.toNat) = d := BitVec.eq_of_toNat_eq (by simp [Nat.mod_eq_of_lt d.isLt])
  rw [digitsOf_succ_right, Nat.mul_add_div (by decide), Nat.div_eq_of_lt d.isLt, Nat.add_zero, hlow]

/-- Only the low digits of a value count (41_encoder.md R123). -/
theorem digitsOf_mod (v len : Nat) : digitsOf (v % 64 ^ len) len = digitsOf v len := by
  simpa [stringValue_digitsOf] using digitsOf_stringValue (digitsOf v len)

/-- Fewer digits are the last ones of more (41_encoder.md R123). -/
theorem drop_digitsOf {n len : Nat} (h : n ≤ len) (v : Nat) : (digitsOf v len).drop (len - n) = digitsOf v n := by
  refine List.ext_getElem (by rw [List.length_drop, length_digitsOf, length_digitsOf]; omega) fun k _ hk => ?_
  have hk : k < n := by simpa using hk
  rw [List.getElem_drop, getElem_digitsOf, getElem_digitsOf, digitAt_eq, digitAt_eq,
    show len - 1 - (len - n + k) = n - 1 - k by omega]

/-! ## The least lengths (41_encoder.md R121, R130, 42_decoder.md R152) -/

theorem le_mul_ldefBuf (n : Nat) : 8 * n ≤ 6 * ldefBuf n := by
  unfold ldefBuf
  omega

theorem ldefBuf_le {n m : Nat} (h : 8 * n ≤ 6 * m) : ldefBuf n ≤ m := by
  unfold ldefBuf
  omega

theorem le_mul_ldefDec (n : Nat) : 6 * n ≤ 8 * ldefDec n := by
  unfold ldefDec
  omega

theorem ldefDec_le {n m : Nat} (h : 6 * n ≤ 8 * m) : ldefDec n ≤ m := by
  unfold ldefDec
  omega

/-- `clog64` is the only least exponent (00_scope.md R16). -/
theorem clog64_eq_of_least {x k : Nat} (hk : x ≤ 64 ^ k) (hleast : ∀ j, j < k → 64 ^ j < x) : clog64 x = k := by
  obtain ⟨reach, least⟩ := clog64_spec x
  refine Nat.le_antisymm (Nat.le_of_not_lt fun h => ?_) (Nat.le_of_not_lt fun h => ?_)
  · exact absurd hk (Nat.not_le.mpr (least k h))
  · exact absurd reach (Nat.not_le.mpr (hleast _ h))

theorem ldefInt_of_pow_two {num : Nat} (h : ∃ e, num = 2 ^ e) : ldefInt num = max 1 (clog64 num + 1) := by
  have hne : num ≠ 0 := by
    obtain ⟨e, rfl⟩ := h
    exact (Nat.two_pow_pos e).ne'
  rw [ldefInt, if_neg hne, if_pos ((isPow2_iff num).mpr h)]

theorem ldefInt_of_not_pow_two {num : Nat} (hpos : 1 ≤ num) (h : ¬ ∃ e, num = 2 ^ e) :
    ldefInt num = max 1 (clog64 num) := by
  rw [ldefInt, if_neg (Nat.one_le_iff_ne_zero.mp hpos), if_neg (mt (isPow2_iff num).mp h), Nat.add_zero]

/-- The default length of ENCINT fits every capacity (41_encoder.md R134). -/
theorem ldefInt_le_nbuf (num : IntWord) : ldefInt num.toNat ≤ Config.nbuf :=
  (ldefInt_le num).trans (le_trans (by decide) Config.nbuf_ge)

/-- A buffer's value fits a number of digits that holds its bits. -/
theorem bufferValue_lt_pow {cs : List Cell} {m : Nat} (h : 8 * cs.length ≤ 6 * m) : bufferValue cs < 64 ^ m :=
  calc bufferValue cs < 256 ^ cs.length := bufferValue_lt cs
    _ = 2 ^ (8 * cs.length) := by rw [Nat.pow_mul]
    _ ≤ 2 ^ (6 * m) := Nat.pow_le_pow_right (by decide) h
    _ = 64 ^ m := by rw [Nat.pow_mul]

/-! ## The state after an encoding -/

/-- The state a successful encoding leaves: the `len` low digits of `v` through LUT, in DST (41_encoder.md R122, R134);
`exec_encbuf_of_holds` and `exec_encint_of_fits` tie it to the commands. -/
def encoded (v len : Nat) (s : State) : State := complete (writeOutput (s.lut.chars (digitsOf v len)) s)

theorem encoded_dstHolds {len : Nat} (h : len ≤ Config.nbuf) (v : Nat) (s : State) :
    (encoded v len s).dstHolds (s.lut.chars (digitsOf v len)) :=
  dstHolds_writeOutput (by simpa using lt_of_le_of_lt h Config.nbuf_lt)

theorem encoded_outLen {len : Nat} (h : len ≤ Config.nbuf) (v : Nat) (s : State) :
    (encoded v len s).outLen.toNat = len := by
  simpa using (encoded_dstHolds h v s).1

theorem encoded_succeeded (v len : Nat) (s : State) : Succeeded s (encoded v len s) := succeeded_writeOutput _ s

theorem encoded_read (v : Nat) {len k : Nat} (hk : k < len) (s : State) :
    (encoded v len s).dst.read k = some (s.lut.char (digitAt v len k)) := by
  simp [encoded, Memory.read_writeList_zero, Alphabet.chars, hk]

/-- Everything a successful encoding says of the next state, its frame included. -/
theorem encoded_spec {len : Nat} (h : len ≤ Config.nbuf) (v : Nat) {s t : State} (ht : t = encoded v len s) :
    t.outLen.toNat = len ∧
      (∀ k, k < t.outLen.toNat → t.dst.read k =
        some (s.lut.char (BitVec.ofNat 6 (v / 64 ^ (t.outLen.toNat - 1 - k))))) ∧
      (∀ k, t.outLen.toNat ≤ k → t.dst.read k = s.dst.read k) ∧ Succeeded s t ∧
      t = { s with dst := t.dst, outLen := t.outLen, status := t.status, errInfo := t.errInfo } := by
  subst ht
  rw [encoded_outLen h]
  refine ⟨rfl, fun k hk => ?_, fun k hk => ?_, encoded_succeeded v len s, frame_writeOutput _ s⟩
  · rw [encoded_read v hk, digitAt_eq]
  · exact Memory.read_writeList_above _ _ _ _ (by simpa using hk)

/-! ## ENCBUF and ENCINT, success and failures -/

theorem exec_encbuf_of_holds {s : State} {cs : List Cell} {len : Option Nat} (h : s.srcHolds cs)
    (hn : cs.length ≤ Config.nbuf) (ho : outputLength len (ldefBuf cs.length) ≤ Config.nbuf) :
    exec (.encbuf len) s = .next (encoded (bufferValue cs) (outputLength len (ldefBuf cs.length)) s) :=
  execEncbuf_of_holds h hn ho

theorem exec_encbuf_of_input {s : State} (h : Config.nbuf < s.srcLen.toNat) (len : Option Nat) :
    exec (.encbuf len) s = .next (raiseError .capacity 1 0 s) := by
  rw [exec, execEncbuf, encbufCommand_eq, if_neg (Nat.not_le.mpr h), endCommand_raise]

theorem exec_encbuf_of_output {s : State} {cs : List Cell} {len : Option Nat} (h : s.srcHolds cs)
    (hn : cs.length ≤ Config.nbuf) (ho : Config.nbuf < outputLength len (ldefBuf cs.length)) :
    exec (.encbuf len) s = .next (raiseError .capacity 2 0 s) := by
  rw [exec, execEncbuf, encbufCommand_eq, h.1, if_pos hn, scanSrc_ok_of_holds h (by simp), ok_bind,
    if_neg (Nat.not_le.mpr ho), endCommand_raise]

theorem exec_encint_of_fits {s : State} {len : Option Nat}
    (ho : outputLength len (ldefInt s.intIn.toNat) ≤ Config.nbuf) (hf : ∀ n, len = some n → s.intIn.toNat < 64 ^ n) :
    exec (.encint len) s = .next (encoded s.intIn.toNat (outputLength len (ldefInt s.intIn.toNat)) s) :=
  execEncint_of_fits ho hf

/-- With LEN omitted nothing can fail (41_encoder.md R131). -/
theorem exec_encint_default (s : State) :
    exec (.encint none) s = .next (encoded s.intIn.toNat (ldefInt s.intIn.toNat) s) :=
  exec_encint_of_fits (len := none) (ldefInt_le_nbuf s.intIn) nofun

theorem exec_encint_of_output {n : Nat} (h : Config.nbuf < n) (s : State) :
    exec (.encint (some n)) s = .next (raiseError .capacity 2 0 s) := by
  rw [exec, execEncint, encintCommand_eq, outputLength, if_neg (Nat.not_le.mpr h), endCommand_raise]

theorem exec_encint_of_bounds {s : State} {n : Nat} (hn : n ≤ Config.nbuf) (h : 64 ^ n ≤ s.intIn.toNat) :
    exec (.encint (some n)) s = .next (raiseError .bounds 0 0 s) := by
  rw [exec, execEncint, encintCommand_eq, outputLength, if_pos hn, requireFits, require_bind,
    if_neg (Nat.not_lt.mpr h), endCommand_raise]

/-! ## The order of the outputs -/

/-- Of two strings of one length the one of the smaller value is the smaller, digit by digit, and a strictly increasing
alphabet keeps that order (41_encoder.md R129, R136). -/
theorem Alphabet.increasing.chars_lt {lut : Alphabet} (hlut : lut.increasing) {ds es : List Digit}
    (hl : ds.length = es.length) (h : stringValue ds < stringValue es) :
    (lut.chars ds).map BitVec.toNat < (lut.chars es).map BitVec.toNat := by
  induction ds generalizing es with
  | nil =>
    rw [List.length_eq_zero_iff.mp hl.symm] at h
    exact absurd h (Nat.lt_irrefl _)
  | cons d ds ih =>
    cases es with
    | nil => cases hl
    | cons e es =>
      have hl : ds.length = es.length := Nat.succ.inj hl
      have hlow := stringValue_lt es
      rw [stringValue_cons, stringValue_cons, hl] at h
      have hde : d.toNat ≤ e.toNat := by
        by_contra hgt
        have := Nat.mul_le_mul_right (64 ^ es.length) (Nat.lt_of_not_le hgt)
        rw [Nat.succ_mul] at this
        omega
      simp only [Alphabet.chars, List.map_cons, List.cons_lt_cons_iff]
      rcases Nat.lt_or_eq_of_le hde with hlt | heq
      · exact .inl (hlut d e hlt)
      · rw [heq] at h
        exact .inr ⟨by rw [BitVec.eq_of_toNat_eq heq], ih hl (Nat.lt_of_add_lt_add_left h)⟩

theorem Alphabet.increasing.chars_digitsOf_lt {lut : Alphabet} (hlut : lut.increasing) {v w len : Nat} (hvw : v < w)
    (hw : w < 64 ^ len) :
    (lut.chars (digitsOf v len)).map BitVec.toNat < (lut.chars (digitsOf w len)).map BitVec.toNat := by
  refine hlut.chars_lt (by simp) ?_
  rwa [stringValue_digitsOf, stringValue_digitsOf, Nat.mod_eq_of_lt (hvw.trans hw), Nat.mod_eq_of_lt hw]

/-! ## The digit datapath of ENCBUF -/

/-- The phase of the position after one of this phase (41_encoder.md R126). -/
def Phase.next : Phase → Phase
  | .a => .b
  | .b => .c
  | .c => .d
  | .d => .a

/-- How many bits hang over when a phase begins (41_encoder.md R125). -/
def Phase.hangBits : Phase → Nat
  | .a => 0
  | .b => 2
  | .c => 4
  | .d => 6

theorem Phase.at_succ (i : Nat) : Phase.at (i + 1) = (Phase.at i).next := by
  have hi : i % 4 = 0 ∨ i % 4 = 1 ∨ i % 4 = 2 ∨ i % 4 = 3 := by omega
  rcases hi with hi | hi | hi | hi <;> simp [Phase.at, Phase.next, Nat.add_mod, hi]

/-- `NextByte()` takes the value's low byte and leaves the value of the bytes before it (41_encoder.md R125). -/
theorem bufferValue_take_nextByte {buf : List Byte} {p : Nat} (hp : p ≤ buf.length) :
    bufferValue (buf.take p) = bufferValue (buf.take (nextByte buf p).2) * 256 + (nextByte buf p).1.toNat := by
  cases p with
  | zero => simp [nextByte, bufferValue]
  | succ p =>
    have hp : p < buf.length := hp
    have hlast : buf.take (p + 1) = buf.take p ++ [buf[p]] := List.take_succ_eq_append_getElem hp
    have hbyte : nextByte buf (p + 1) = (buf[p], p) := by simp [nextByte, hp]
    rw [hlast, hbyte, bufferValue, List.map_append, beval_append]
    simp [bufferValue, beval_cons]

/-- The value of what the grouper still holds: the bits hanging over, below the bytes not yet consumed. -/
def grouperRest (buf : List Byte) (ph : Phase) (p : Nat) (hang : BitVec 6) : Nat :=
  bufferValue (buf.take p) * 2 ^ ph.hangBits + hang.toNat

theorem toNat_low_append_low (m n : Nat) (x : Byte) (hang : BitVec 6) :
    (x.extractLsb' 0 m ++ hang.extractLsb' 0 n).toNat = x.toNat % 2 ^ m * 2 ^ n + hang.toNat % 2 ^ n := by
  rw [BitVec.toNat_append, ← Nat.shiftLeft_add_eq_or_of_lt (BitVec.isLt _), Nat.shiftLeft_eq]
  simp

/-- A phase splits what the grouper holds into its low digit, which it emits, and the rest, which it keeps. -/
theorem grouperStep_spec {buf : List Byte} {ph : Phase} {p p' : Nat} {hang hang' : BitVec 6} {d : Digit}
    (hp : p ≤ buf.length) (hh : hang.toNat < 2 ^ ph.hangBits) (h : grouperStep buf ph p hang = (d, p', hang')) :
    p' ≤ buf.length ∧ hang'.toNat < 2 ^ ph.next.hangBits ∧
      grouperRest buf ph p hang = 64 * grouperRest buf ph.next p' hang' + d.toNat := by
  have hbyte : (nextByte buf p).1.toNat < 256 := (nextByte buf p).1.isLt
  have hleft : (nextByte buf p).2 ≤ buf.length := (Nat.sub_le p 1).trans hp
  have hvalue := bufferValue_take_nextByte hp
  simp only [grouperStep] at h
  cases ph with
  | a =>
    cases h
    have hh : hang.toNat < 1 := hh
    have hdigit : ((nextByte buf p).1.extractLsb' 0 6).toNat = (nextByte buf p).1.toNat % 64 := by simp
    have hkept : (((nextByte buf p).1.extractLsb' 6 2).setWidth 6).toNat = (nextByte buf p).1.toNat / 64 := by
      rw [BitVec.toNat_setWidth, BitVec.extractLsb'_toNat, Nat.shiftRight_eq_div_pow]
      omega
    simp only [grouperRest, Phase.next, Phase.hangBits, hdigit, hkept]
    omega
  | b =>
    cases h
    have hh : hang.toNat < 4 := hh
    have hdigit := toNat_low_append_low 4 2 (nextByte buf p).1 hang
    have hkept : (((nextByte buf p).1.extractLsb' 4 4).setWidth 6).toNat = (nextByte buf p).1.toNat / 16 := by
      rw [BitVec.toNat_setWidth, BitVec.extractLsb'_toNat, Nat.shiftRight_eq_div_pow]
      omega
    simp only [grouperRest, Phase.next, Phase.hangBits, hdigit, hkept]
    omega
  | c =>
    cases h
    have hh : hang.toNat < 16 := hh
    have hdigit := toNat_low_append_low 2 4 (nextByte buf p).1 hang
    have hkept : ((nextByte buf p).1.extractLsb' 2 6).toNat = (nextByte buf p).1.toNat / 4 := by
      rw [BitVec.extractLsb'_toNat, Nat.shiftRight_eq_div_pow]
      omega
    simp only [grouperRest, Phase.next, Phase.hangBits, hdigit, hkept]
    omega
  | d =>
    cases h
    refine ⟨hp, by decide, ?_⟩
    simp [grouperRest, Phase.next, Phase.hangBits, Nat.mul_comm]

/-- From any point of a run the digits still to come are those of what the grouper holds. -/
theorem reverse_grouperRun {buf : List Byte} {n i p : Nat} {hang : BitVec 6} (hp : p ≤ buf.length)
    (hh : hang.toNat < 2 ^ (Phase.at i).hangBits) :
    (grouperRun buf n i p hang).reverse = digitsOf (grouperRest buf (Phase.at i) p hang) n := by
  induction n generalizing i p hang with
  | zero => rfl
  | succ n ih =>
    rcases hstep : grouperStep buf (Phase.at i) p hang with ⟨d, p', hang'⟩
    obtain ⟨hp', hh', hrest⟩ := grouperStep_spec hp hh hstep
    rw [← Phase.at_succ] at hh' hrest
    simp only [grouperRun, hstep]
    rw [List.reverse_cons, ih hp' hh', hrest, digitsOf_mul_add]

/-! ## The digit datapath of ENCINT -/

/-- The digits the extractor writes are those of `t`; once `t` is 0 they are 0 (41_encoder.md R133). -/
theorem reverse_extractorRun (n : Nat) (t : IntWord) : (extractorRun n t).reverse = digitsOf t.toNat n := by
  induction n generalizing t with
  | zero => rfl
  | succ n ih =>
    have hsplit : t.toNat = 64 * (t >>> 6).toNat + (t.extractLsb' 0 6).toNat := by
      rw [BitVec.toNat_ushiftRight, BitVec.extractLsb'_toNat, Nat.shiftRight_eq_div_pow]
      omega
    rw [extractorRun, hsplit, digitsOf_mul_add]
    split
    · rw [List.reverse_cons, ih]
    · rename_i hzero
      rw [Decidable.not_not.mp hzero, List.reverse_cons, ih]
      rfl

end Sys2Proof.Machine

namespace Sys2Proof

open Machine

/-- A length argument fills the LEN field it was read from (30_encoding.md R74). -/
theorem toNat_ofNat_getD_lenArg {n : Nat} (h : n < 2 ^ 24) : n = (BitVec.ofNat 24 ((lenArg n).getD 0)).toNat := by
  rw [getD_lenArg, BitVec.toNat_ofNat, Nat.mod_eq_of_lt h]

/-- The LEN field of an encoder word is its length argument (30_encoding.md R74). -/
theorem decode_wordOfFields_encbuf {n : Nat} (h : n < 2 ^ 24) :
    decode (wordOfFields 3 0 n) = .ok (.encbuf (lenArg n)) :=
  decode_wordOfFields (i := .encbuf (lenArg n)) (lenArgOk_lenArg h) rfl (toNat_ofNat_getD_lenArg h)

theorem decode_wordOfFields_encint {n : Nat} (h : n < 2 ^ 24) :
    decode (wordOfFields 4 0 n) = .ok (.encint (lenArg n)) :=
  decode_wordOfFields (i := .encint (lenArg n)) (lenArgOk_lenArg h) rfl (toNat_ofNat_getD_lenArg h)

end Sys2Proof

namespace Sys2Proof.Proofs

open Sys2Proof.Machine

/-- Settles O21: the state a success leaves is `encoded` (`encoded_spec`), and each of the two failures is the first
check that fails. -/
theorem encbufWritesTheLowDigitsOrReportsTheFirstFailure :
    Obligations.EncbufWritesTheLowDigitsOrReportsTheFirstFailure := by
  unfold Obligations.EncbufWritesTheLowDigitsOrReportsTheFirstFailure
  refine ⟨fun n hn => decode_wordOfFields_encbuf hn, fun s len _ => ⟨fun cs h hn ho => ?_, fun hn => ?_,
    fun cs h hn ho => ?_⟩⟩
  · exact ⟨_, exec_encbuf_of_holds h hn ho, encoded_spec ho _ rfl⟩
  · exact ⟨_, exec_encbuf_of_input hn len, failedWith_raiseError .capacity 1 0 s (by decide)⟩
  · exact ⟨_, exec_encbuf_of_output h hn ho, failedWith_raiseError .capacity 2 0 s (by decide)⟩

/-- Settles O23: the state a success leaves is `encoded`, as for O21, and each of the two failures is the first check
that fails. -/
theorem encintWritesTheDigitsOrReportsTheFirstFailure : Obligations.EncintWritesTheDigitsOrReportsTheFirstFailure := by
  unfold Obligations.EncintWritesTheDigitsOrReportsTheFirstFailure
  refine ⟨fun n hn => decode_wordOfFields_encint hn, fun s => ⟨fun len _ ho hf => ?_, fun n hn => ?_,
    fun n _ hn hbig => ?_⟩⟩
  · exact ⟨_, exec_encint_of_fits ho hf, encoded_spec ho _ rfl⟩
  · exact ⟨_, exec_encint_of_output hn s, failedWith_raiseError .capacity 2 0 s (by decide)⟩
  · exact ⟨_, exec_encint_of_bounds hn hbig, failedWith_raiseError .bounds 0 0 s (by decide)⟩

/-- Settles O24: the default length holds every integer (`lt_pow_ldefInt`) and fits every capacity (`ldefInt_le`). -/
theorem encintWithLengthOmittedAlwaysSucceeds : Obligations.EncintWithLengthOmittedAlwaysSucceeds := by
  unfold Obligations.EncintWithLengthOmittedAlwaysSucceeds
  exact fun s => ⟨lt_pow_ldefInt _, _, exec_encint_default s, (encoded_succeeded _ _ s).code⟩

/-- Settles O25: `clog64` is the only least exponent (`clog64_eq_of_least`). -/
theorem encintDefaultLengthIsTheRule : Obligations.EncintDefaultLengthIsTheRule := by
  unfold Obligations.EncintDefaultLengthIsTheRule
  refine ⟨rfl, fun num k hpos hk hleast => ?_, fun s => ?_⟩
  · rw [← clog64_eq_of_least hk hleast]
    exact ⟨ldefInt_of_pow_two, ldefInt_of_not_pow_two hpos⟩
  · exact ⟨_, exec_encint_default s, encoded_outLen (ldefInt_le_nbuf s.intIn) _ s⟩

/-- Settles O26: both defaults are the least sufficient lengths, DECBUF's output is no longer than its input, and
OUT_LEN is the output's length. -/
theorem defaultLengthsAreTheLeastSufficient : Obligations.DefaultLengthsAreTheLeastSufficient := by
  unfold Obligations.DefaultLengthsAreTheLeastSufficient
  refine ⟨fun n => ⟨⟨rfl, le_mul_ldefBuf n, fun m => ldefBuf_le⟩, ⟨rfl, le_mul_ldefDec n, fun m => ldefDec_le⟩, ?_, ?_⟩,
    fun s cs h hn => ⟨fun ho => ?_, fun hv => ?_⟩⟩
  · unfold ldefBuf
    omega
  · unfold ldefDec
    omega
  · exact ⟨_, exec_encbuf_of_holds (len := none) h hn ho, encoded_outLen ho _ s⟩
  · have ho : ldefDec cs.length ≤ Config.nbuf := (ldefDec_le (by omega)).trans hn
    refine ⟨_, execDecbuf_of_holds (bytes := none) h hn hv ho, ?_⟩
    simpa [outputLength] using lt_of_le_of_lt ho Config.nbuf_lt

/-- Settles O27: the low digits are those of the remainder (`digitsOf_mod`) and the last of any longer output
(`drop_digitsOf`). -/
theorem encbufTruncationKeepsTheLowDigits : Obligations.EncbufTruncationKeepsTheLowDigits := by
  unfold Obligations.EncbufTruncationKeepsTheLowDigits
  intro s cs n h hn _ ho hshort
  refine ⟨_, exec_encbuf_of_holds (len := some n) h hn ho, encoded_succeeded _ n s, ?_, fun hd => ?_⟩
  · rw [digitsOf_mod]
    exact encoded_dstHolds ho _ s
  · refine ⟨_, _, exec_encbuf_of_holds (len := none) h hn hd, encoded_dstHolds hd _ s, ?_⟩
    rw [Alphabet.chars, ← List.map_drop, drop_digitsOf hshort.le]
    exact encoded_dstHolds ho _ s

/-- Settles O28: the value has no bits there (`bufferValue_lt_pow`), so the digit is 0. -/
theorem encbufPadsWithTheZeroCharacter : Obligations.EncbufPadsWithTheZeroCharacter := by
  unfold Obligations.EncbufPadsWithTheZeroCharacter
  intro s cs n h hn _ ho
  have hpad : ∀ k, k < n → 8 * cs.length ≤ 6 * (n - 1 - k) →
      (encoded (bufferValue cs) n s).dst.read k = some (s.lut.char 0) := fun k hk hbits => by
    rw [encoded_read _ hk, digitAt_eq_zero (bufferValue_lt_pow hbits)]
  refine ⟨_, exec_encbuf_of_holds (len := some n) h hn ho, hpad, fun k hk => hpad k (by omega) ?_⟩
  calc 8 * cs.length ≤ 6 * ldefBuf cs.length := le_mul_ldefBuf _
    _ ≤ 6 * (n - 1 - k) := by omega

/-- Settles O29: the run of the grouper from its start, where it holds the whole buffer. -/
theorem grouperComputesTheDigits : Obligations.GrouperComputesTheDigits := by
  unfold Obligations.GrouperComputesTheDigits
  intro buf len
  rw [grouperDigits, reverse_grouperRun le_rfl (by decide)]
  simp [grouperRest, Phase.at, Phase.hangBits]

/-- Settles O30: the extractor takes the digits off the low end (`reverse_extractorRun`), of a fitting
integer as of any other. -/
theorem extractorComputesTheDigits : Obligations.ExtractorComputesTheDigits := by
  unfold Obligations.ExtractorComputesTheDigits
  exact fun num len _ => reverse_extractorRun len num

/-- Settles O31: both commands succeed, and the alphabet keeps the order of the digits. -/
theorem encbufPreservesOrder : Obligations.EncbufPreservesOrder := by
  unfold Obligations.EncbufPreservesOrder
  intro s1 s2 b1 b2 l1 l2 len h1 h2 hlut hinc hn1 hn2 hlen ho1 ho2 hlt hfit
  have run1 := exec_encbuf_of_holds h1 hn1 (ho1.trans_le hlen)
  have run2 := exec_encbuf_of_holds h2 hn2 (ho2.trans_le hlen)
  rw [ho1] at run1
  rw [ho2] at run2
  refine ⟨_, _, _, _, run1, run2, encoded_dstHolds hlen _ s1, encoded_dstHolds hlen _ s2, ?_⟩
  rw [← hlut]
  exact hinc.chars_digitsOf_lt hlt hfit

/-- Settles O32: both commands succeed, since a given length is the common one, which both integers fit; the alphabet
keeps the order of the digits. -/
theorem encintPreservesOrder : Obligations.EncintPreservesOrder := by
  unfold Obligations.EncintPreservesOrder
  intro s1 s2 l1 l2 len hlut hinc hlen ho1 ho2 hlt hfit
  have hlt : s1.intIn.toNat < s2.intIn.toNat := hlt
  have run1 := exec_encint_of_fits (ho1.trans_le hlen) fun n hn => by
    have hlen : n = len := by rwa [hn] at ho1
    exact hlen ▸ hlt.trans hfit
  have run2 := exec_encint_of_fits (ho2.trans_le hlen) fun n hn => by
    have hlen : n = len := by rwa [hn] at ho2
    exact hlen ▸ hfit
  rw [ho1] at run1
  rw [ho2] at run2
  refine ⟨_, _, _, _, run1, run2, encoded_dstHolds hlen _ s1, encoded_dstHolds hlen _ s2, ?_⟩
  rw [← hlut]
  exact hinc.chars_digitsOf_lt hlt hfit

/-- Settles O33: both commands leave the state `encoded` of the one value. -/
theorem encbufAndEncintAgree : Obligations.EncbufAndEncintAgree := by
  unfold Obligations.EncbufAndEncintAgree
  intro s cs n h hn _ ho hval hfit
  have hint : exec (.encint (some n)) s = .next (encoded s.intIn.toNat n s) :=
    exec_encint_of_fits (len := some n) ho fun _ hsome => by
      cases hsome
      exact hval ▸ hfit
  rw [hval] at hint
  exact ⟨_, _, _, exec_encbuf_of_holds (len := some n) h hn ho, hint, encoded_dstHolds ho _ s, encoded_dstHolds ho _ s⟩

end Sys2Proof.Proofs
end

section
/-! The obligations of spec/42_decoder.md: what DECBUF and DECINT write and when they fail, the byte datapath of DECBUF,
and the round trips through the encoder. -/

namespace Sys2Proof.Machine

/-! ## The bytes of a value -/

theorem byteAt_eq (v len j : Nat) : byteAt v len j = BitVec.ofNat 8 (v / 256 ^ (len - 1 - j)) := by
  rw [byteAt, Nat.shiftRight_eq_div_pow, Nat.pow_mul]

/-- A byte above the value's bits is 0 (42_decoder.md R154). -/
theorem byteAt_eq_zero {v len j : Nat} (h : v < 256 ^ (len - 1 - j)) : byteAt v len j = 0 := by
  rw [byteAt_eq, Nat.div_eq_of_lt h]
  rfl

/-- One more byte on the right. -/
theorem bytesOf_mul_add (v len : Nat) (x : Byte) : bytesOf (256 * v + x.toNat) (len + 1) = bytesOf v len ++ [x] := by
  induction len with
  | zero =>
    have hlow : BitVec.ofNat 8 (256 * v + x.toNat) = x := BitVec.eq_of_toNat_eq (by simp [Nat.mod_eq_of_lt x.isLt])
    simp [bytesOf, byteAt, hlow]
  | succ len ih =>
    have hfirst : (256 * v + x.toNat) / 256 ^ (len + 1) = v / 256 ^ len := by
      rw [Nat.pow_succ', ← Nat.div_div_eq_div_mul, Nat.mul_add_div (by decide), Nat.div_eq_of_lt x.isLt, Nat.add_zero]
    rw [bytesOf_succ _ (len + 1), ih, hfirst, bytesOf_succ v len, List.cons_append]

/-- A buffer with one zero byte before it: its value in one byte more (42_decoder.md R159). -/
theorem bytesOf_bufferValue_succ (b : List Cell) : bytesOf (bufferValue b) (b.length + 1) = 0 :: b := by
  rw [bytesOf_succ, bytesOf_bufferValue, Nat.div_eq_of_lt (bufferValue_lt b)]
  rfl

/-- A string's value fits a number of bytes that holds its bits. -/
theorem stringValue_lt_pow {ds : List Digit} {m : Nat} (h : 6 * ds.length ≤ 8 * m) : stringValue ds < 256 ^ m :=
  calc stringValue ds < 64 ^ ds.length := stringValue_lt ds
    _ = 2 ^ (6 * ds.length) := by rw [Nat.pow_mul]
    _ ≤ 2 ^ (8 * m) := Nat.pow_le_pow_right (by decide) h
    _ = 256 ^ m := by rw [Nat.pow_mul]

/-- The value of the characters so far never falls (42_decoder.md R161). -/
theorem stringValue_take_le (ds : List Digit) {i k : Nat} (h : i ≤ k) :
    stringValue (ds.take i) ≤ stringValue (ds.take k) := by
  have hsplit : ds.take k = ds.take i ++ (ds.take k).drop i := by
    conv_lhs => rw [← List.take_append_drop i (ds.take k), List.take_take, Nat.min_eq_left h]
  rw [hsplit, stringValue_append]
  exact (Nat.le_mul_of_pos_right _ (Nat.pow_pos (by decide))).trans (Nat.le_add_right _ _)

theorem ldefDec_le_self (n : Nat) : ldefDec n ≤ n := ldefDec_le (by omega)

/-- Both defaults in a row lose nothing, and add a byte unless the buffer fills its characters (42_decoder.md R159). -/
theorem ldefDec_ldefBuf (n : Nat) : ldefDec (ldefBuf n) = if n % 3 = 0 then n else n + 1 := by
  unfold ldefDec ldefBuf
  split
  · omega
  · have hn : n % 3 = 1 ∨ n % 3 = 2 := by omega
    rcases hn with hn | hn <;> omega

/-- The bytes a buffer's value comes back in when both lengths are omitted (42_decoder.md R159). -/
theorem bytesOf_bufferValue_default (b : List Cell) :
    bytesOf (bufferValue b) (ldefDec (ldefBuf b.length)) = if b.length % 3 = 0 then b else 0 :: b := by
  rw [ldefDec_ldefBuf]
  split
  · exact bytesOf_bufferValue b
  · exact bytesOf_bufferValue_succ b

/-! ## Reading characters by the reverse table -/

section
variable {rlut : ReverseMap} {cs : List Cell} {ds : List Digit}
  (h : cs.map rlut.entry = ds.map fun d => ⟨true, d⟩)
include h

theorem valid_of_entries : ∀ c ∈ cs, (rlut.entry c).valid = true := by
  intro c hc
  obtain ⟨d, -, hd⟩ := List.mem_map.mp (h ▸ List.mem_map_of_mem hc)
  rw [← hd]

theorem digits_of_entries : rlut.digits cs = ds :=
  calc rlut.digits cs = (cs.map rlut.entry).map RlutEntry.idx := (List.map_map ..).symm
    _ = ds := by simp [h, Function.comp_def]

end

/-- The reverse table reads back the characters of any digits (10_state.md R22). -/
theorem ReverseOf.entries_chars {lut : Alphabet} {rlut : ReverseMap} (h : ReverseOf lut rlut) (ds : List Digit) :
    (lut.chars ds).map rlut.entry = ds.map fun d => ⟨true, d⟩ := by
  rw [Alphabet.chars, List.map_map]
  refine List.map_congr_left fun d _ => ?_
  have hvalid : (rlut.entry (lut.char d)).valid = true := (h.valid _).mpr ⟨d, rfl⟩
  have hindex : (rlut.entry (lut.char d)).idx = d := h.index d
  exact congrArg₂ RlutEntry.mk hvalid hindex

/-! ## The state after a decoding -/

/-- The state a successful DECBUF leaves: the `len` low bytes of `v` in DST (42_decoder.md R153);
`exec_decbuf_of_holds` ties it to the command. -/
def decoded (v len : Nat) (s : State) : State := complete (writeOutput (bytesOf v len) s)

theorem decoded_dstHolds {len : Nat} (h : len ≤ Config.nbuf) (v : Nat) (s : State) :
    (decoded v len s).dstHolds (bytesOf v len) :=
  dstHolds_writeOutput (by simpa using lt_of_le_of_lt h Config.nbuf_lt)

theorem decoded_outLen {len : Nat} (h : len ≤ Config.nbuf) (v : Nat) (s : State) :
    (decoded v len s).outLen.toNat = len := by
  simpa using (decoded_dstHolds h v s).1

theorem decoded_succeeded (v len : Nat) (s : State) : Succeeded s (decoded v len s) := succeeded_writeOutput _ s

theorem decoded_read (v : Nat) {len j : Nat} (hj : j < len) (s : State) :
    (decoded v len s).dst.read j = some (byteAt v len j) := by
  simp [decoded, Memory.read_writeList_zero, hj]

/-- Everything a successful DECBUF says of the next state, its frame included. -/
theorem decoded_spec {len : Nat} (h : len ≤ Config.nbuf) (v : Nat) {s t : State} (ht : t = decoded v len s) :
    t.outLen.toNat = len ∧
      (∀ j, j < t.outLen.toNat → t.dst.read j = some (BitVec.ofNat 8 (v / 256 ^ (t.outLen.toNat - 1 - j)))) ∧
      (∀ j, t.outLen.toNat ≤ j → t.dst.read j = s.dst.read j) ∧ Succeeded s t ∧
      t = { s with dst := t.dst, outLen := t.outLen, status := t.status, errInfo := t.errInfo } := by
  subst ht
  rw [decoded_outLen h]
  refine ⟨rfl, fun j hj => ?_, fun j hj => ?_, decoded_succeeded v len s, frame_writeOutput _ s⟩
  · rw [decoded_read v hj, byteAt_eq]
  · exact Memory.read_writeList_above _ _ _ _ (by simpa using hj)

/-! ## DECBUF and DECINT, success and failures -/

theorem scanSrc_of_valid {s : State} {cs : List Cell} (h : s.srcHolds cs)
    (hv : ∀ c ∈ cs, (s.rlut.entry c).valid = true) : scanSrc (decodeCheck s.rlut) s = .ok cs :=
  scanSrc_ok_of_holds h fun _ hk => decodeCheck_eq_none.mpr (hv _ (List.getElem_mem hk))

section
variable {s : State} {cs : List Cell} {ds : List Digit} (h : s.srcHolds cs) (hn : cs.length ≤ Config.nbuf)
include h hn

theorem exec_decbuf_of_holds {bytes : Option Nat} (hv : ∀ c ∈ cs, (s.rlut.entry c).valid = true)
    (ho : outputLength bytes (ldefDec cs.length) ≤ Config.nbuf) :
    exec (.decbuf bytes) s =
      .next (decoded (stringValue (s.rlut.digits cs)) (outputLength bytes (ldefDec cs.length)) s) :=
  execDecbuf_of_holds h hn hv ho

theorem exec_decbuf_of_output {bytes : Option Nat} (hv : ∀ c ∈ cs, (s.rlut.entry c).valid = true)
    (ho : Config.nbuf < outputLength bytes (ldefDec cs.length)) :
    exec (.decbuf bytes) s = .next (raiseError .capacity 2 0 s) := by
  rw [exec, execDecbuf, decbufCommand_eq, h.1, if_pos hn, scanSrc_of_valid h hv, ok_bind,
    if_neg (Nat.not_le.mpr ho), endCommand_raise]

theorem exec_decbuf_of_entries {bytes : Option Nat} (hds : cs.map s.rlut.entry = ds.map fun d => ⟨true, d⟩)
    (ho : outputLength bytes (ldefDec cs.length) ≤ Config.nbuf) :
    exec (.decbuf bytes) s = .next (decoded (stringValue ds) (outputLength bytes (ldefDec cs.length)) s) := by
  rw [exec_decbuf_of_holds h hn (valid_of_entries hds) ho, digits_of_entries hds]

theorem exec_decint_of_entries (hds : cs.map s.rlut.entry = ds.map fun d => ⟨true, d⟩)
    (hf : stringValue ds < 2 ^ Config.intW) :
    exec .decint s = .next (complete { s with intOut := BitVec.ofNat Config.intW (stringValue ds) }) := by
  have hval := digits_of_entries hds
  rw [exec, execDecint_of_holds h hn (valid_of_entries hds) (hval ▸ hf), hval]

/-- DECINT stops at the first index at which the value does not fit (42_decoder.md R161). -/
theorem exec_decint_of_overflow {k : Nat} (hds : cs.map s.rlut.entry = ds.map fun d => ⟨true, d⟩)
    (hk : k < ds.length) (hlow : stringValue (ds.take k) < 2 ^ Config.intW)
    (hhigh : 2 ^ Config.intW ≤ stringValue (ds.take (k + 1))) :
    exec .decint s = .next (raiseError .overflow 0 k s) := by
  have hstop : accumulate ds 0 0 = .error (.raise .overflow 0 k) :=
    accumulate_error.mpr ⟨k, hk, by rw [Nat.zero_add], by simpa using hhigh, fun i hi => by
      simpa using (stringValue_take_le ds hi).trans_lt hlow⟩
  rw [exec, execDecint, decintCommand_eq, h.1, if_pos hn, scanSrc_of_valid h (valid_of_entries hds), ok_bind,
    digits_of_entries hds, hstop, error_bind, endCommand_raise]

end

theorem exec_decbuf_of_input {s : State} (h : Config.nbuf < s.srcLen.toNat) (bytes : Option Nat) :
    exec (.decbuf bytes) s = .next (raiseError .capacity 1 0 s) := by
  rw [exec, execDecbuf, decbufCommand_eq, if_neg (Nat.not_le.mpr h), endCommand_raise]

theorem exec_decint_of_input {s : State} (h : Config.nbuf < s.srcLen.toNat) :
    exec .decint s = .next (raiseError .capacity 1 0 s) := by
  rw [exec, execDecint, decintCommand_eq, if_neg (Nat.not_le.mpr h), endCommand_raise]

/-! ## Decoding what the encoder wrote -/

section
variable {lut : Alphabet} {u : State} {v len : Nat} (hrev : ReverseOf lut u.rlut)
  (h : u.srcHolds (lut.chars (digitsOf v len))) (hn : len ≤ Config.nbuf) (hfit : v < 64 ^ len)
include hrev h hn hfit

theorem exec_decbuf_of_chars {bytes : Option Nat} (ho : outputLength bytes (ldefDec len) ≤ Config.nbuf) :
    exec (.decbuf bytes) u = .next (decoded v (outputLength bytes (ldefDec len)) u) := by
  have hlen : (lut.chars (digitsOf v len)).length = len := by simp
  have hrun := exec_decbuf_of_entries (bytes := bytes) h (hlen.trans_le hn) (hrev.entries_chars _) (hlen.symm ▸ ho)
  rwa [hlen, stringValue_digitsOf, Nat.mod_eq_of_lt hfit] at hrun

theorem exec_decint_of_chars (hint : v < 2 ^ Config.intW) :
    exec .decint u = .next (complete { u with intOut := BitVec.ofNat Config.intW v }) := by
  have hval : stringValue (digitsOf v len) = v := (stringValue_digitsOf v len).trans (Nat.mod_eq_of_lt hfit)
  have hrun := exec_decint_of_entries h (by simpa using hn) (hrev.entries_chars _) (hval.trans_lt hint)
  rwa [hval] at hrun

end

/-! ## The byte datapath of DECBUF -/

/-- How many bits the unpacker carries when a phase begins (42_decoder.md R156). -/
def Phase.carryBits : Phase → Nat
  | .a => 0
  | .b => 6
  | .c => 4
  | .d => 2

/-- `NextDigit()` takes the value's low digit and leaves the value of the digits before it (42_decoder.md R156). -/
theorem stringValue_take_nextDigit {ds : List Digit} {q : Nat} (hq : q ≤ ds.length) :
    stringValue (ds.take q) = stringValue (ds.take (nextDigit ds q).2) * 64 + (nextDigit ds q).1.toNat := by
  cases q with
  | zero => simp [nextDigit]
  | succ q =>
    have hq : q < ds.length := hq
    have hdigit : nextDigit ds (q + 1) = (ds[q], q) := by simp [nextDigit, hq]
    rw [List.take_succ_eq_append_getElem hq, hdigit, stringValue_append]
    simp [stringValue_cons]

/-- The value of what the unpacker still holds: the bits carried, below the digits not yet consumed. -/
def unpackerRest (ds : List Digit) (ph : Phase) (q : Nat) (acc : BitVec 6) : Nat :=
  stringValue (ds.take q) * 2 ^ ph.carryBits + acc.toNat

/-- The first phase takes in a digit and emits nothing. -/
theorem unpackerRest_of_load {ds : List Digit} {q : Nat} {acc : BitVec 6} (hq : q ≤ ds.length)
    (hacc : acc.toNat < 2 ^ Phase.a.carryBits) :
    unpackerRest ds .a q acc = unpackerRest ds .b (nextDigit ds q).2 (nextDigit ds q).1 := by
  have hacc : acc.toNat < 1 := hacc
  have hvalue := stringValue_take_nextDigit hq
  simp only [unpackerRest, Phase.carryBits]
  omega

theorem toNat_append_eq_add {m n : Nat} (x : BitVec m) (y : BitVec n) :
    (x ++ y).toNat = x.toNat * 2 ^ n + y.toNat := by
  rw [BitVec.toNat_append, ← Nat.shiftLeft_add_eq_or_of_lt y.isLt, Nat.shiftLeft_eq]

theorem toNat_lowBits {w : Nat} (x : BitVec w) (n : Nat) : (x.extractLsb' 0 n).toNat = x.toNat % 2 ^ n := by
  rw [BitVec.extractLsb'_toNat, Nat.shiftRight_zero]

theorem toNat_highBits (x : Digit) {m n : Nat} (h : m + n = 6) :
    ((x.extractLsb' m n).setWidth 6).toNat = x.toNat / 2 ^ m := by
  have hquot : x.toNat / 2 ^ m < 2 ^ n := Nat.div_lt_of_lt_mul (by rw [← Nat.pow_add, h]; exact x.isLt)
  have hwide : (x.extractLsb' m n).toNat < 2 ^ 6 :=
    (BitVec.isLt _).trans_le (Nat.pow_le_pow_right (by decide) (by omega))
  rw [BitVec.toNat_setWidth, Nat.mod_eq_of_lt hwide, BitVec.extractLsb'_toNat, Nat.shiftRight_eq_div_pow,
    Nat.mod_eq_of_lt hquot]

/-- Every other phase splits what the unpacker holds into its low byte, which it emits, and the rest, which it keeps. -/
theorem unpackerStep_emits {ds : List Digit} {ph : Phase} {q : Nat} {acc : BitVec 6} (hph : ph ≠ .a)
    (hq : q ≤ ds.length) (hacc : acc.toNat < 2 ^ ph.carryBits) :
    ∃ x q' acc', unpackerStep ds ph q acc = (some x, q', acc') ∧ q' ≤ ds.length ∧
      acc'.toNat < 2 ^ ph.next.carryBits ∧
      unpackerRest ds ph q acc = 256 * unpackerRest ds ph.next q' acc' + x.toNat := by
  have hdigit : (nextDigit ds q).1.toNat < 64 := (nextDigit ds q).1.isLt
  have hleft : (nextDigit ds q).2 ≤ ds.length := (Nat.sub_le q 1).trans hq
  have hvalue := stringValue_take_nextDigit hq
  cases ph with
  | a => exact absurd rfl hph
  | b =>
    refine ⟨_, _, _, rfl, hleft, ?_⟩
    simp only [unpackerRest, Phase.next, Phase.carryBits, toNat_append_eq_add, toNat_lowBits,
      toNat_highBits _ (by decide : 2 + 4 = 6)]
    omega
  | c =>
    have hacc : acc.toNat < 16 := hacc
    refine ⟨_, _, _, rfl, hleft, ?_⟩
    simp only [unpackerRest, Phase.next, Phase.carryBits, toNat_append_eq_add, toNat_lowBits,
      toNat_highBits _ (by decide : 4 + 2 = 6)]
    omega
  | d =>
    have hacc : acc.toNat < 4 := hacc
    refine ⟨_, _, _, rfl, hleft, by decide, ?_⟩
    have hzero : (0 : BitVec 6).toNat = 0 := rfl
    simp only [unpackerRest, Phase.next, Phase.carryBits, toNat_append_eq_add, toNat_lowBits, hzero]
    omega

/-- From any point of a run with enough positions left, the bytes still to come are those of what the unpacker holds.
Two positions a byte are enough, and one fewer once the first phase is over. -/
theorem reverse_unpackerRun {ds : List Digit} {fuel left i q : Nat} {acc : BitVec 6} (hq : q ≤ ds.length)
    (hacc : acc.toNat < 2 ^ (Phase.at i).carryBits) (hfuel : 2 * left ≤ fuel + 1)
    (hstart : Phase.at i = .a → 2 * left ≤ fuel) :
    (unpackerRun ds fuel left i q acc).reverse = bytesOf (unpackerRest ds (Phase.at i) q acc) left := by
  induction fuel generalizing left i q acc with
  | zero =>
    have hleft : left = 0 := by omega
    subst hleft
    rfl
  | succ fuel ih =>
    cases left with
    | zero => rfl
    | succ left =>
      rw [unpackerRun, if_neg (Nat.succ_ne_zero left)]
      have hnext := Phase.at_succ i
      by_cases hph : Phase.at i = .a
      · have hfuel := hstart hph
        rw [hph] at hacc hnext ⊢
        have hnext : Phase.at (i + 1) = .b := hnext
        have hrun := ih (left := left + 1) (i := i + 1) (q := (nextDigit ds q).2) (acc := (nextDigit ds q).1)
          ((Nat.sub_le q 1).trans hq) (hnext ▸ (nextDigit ds q).1.isLt) hfuel
          fun ha => absurd (ha.symm.trans hnext) (by decide)
        rw [hnext] at hrun
        rw [unpackerRest_of_load hq hacc, ← hrun]
        rfl
      · obtain ⟨x, q', acc', hstep, hq', hacc', hrest⟩ := unpackerStep_emits hph hq hacc
        rw [← hnext] at hacc' hrest
        simp only [hstep]
        rw [Nat.add_sub_cancel, List.reverse_cons, ih hq' hacc' (by omega) (fun _ => by omega), hrest, bytesOf_mul_add]

end Sys2Proof.Machine

namespace Sys2Proof

open Machine

/-- The LEN field of DECBUF's word is its length argument (30_encoding.md R74). -/
theorem decode_wordOfFields_decbuf {n : Nat} (h : n < 2 ^ 24) :
    decode (wordOfFields 5 0 n) = .ok (.decbuf (lenArg n)) :=
  decode_wordOfFields (i := .decbuf (lenArg n)) (lenArgOk_lenArg h) rfl (toNat_ofNat_getD_lenArg h)

end Sys2Proof

namespace Sys2Proof.Proofs

open Sys2Proof.Machine

/-- Settles O35: O57, for the cells of the input before the invalid one. -/
theorem decodersReportTheLowestInvalidCharacter : Obligations.DecodersReportTheLowestInvalidCharacter := by
  unfold Obligations.DecodersReportTheLowestInvalidCharacter
  intro s cs k c h hn hv hk hbad
  obtain ⟨hlt, -⟩ := List.getElem?_eq_some_iff.mp hk
  have hlen : (cs.take k).length = k := List.length_take_of_le hlt.le
  obtain ⟨-, stops⟩ := laterCellsDoNotHideTheFirstFailure s (cs.take k) c (h.read_take k)
    (by rw [hlen, h.2 k hlt, hk]) (by rwa [hlen, h.1])
  rw [hlen] at stops
  obtain ⟨decbuf, decint⟩ := stops (h.1.trans_le hn) hv hbad
  exact ⟨fun bytes _ => decbuf bytes, decint⟩

/-- Settles O34: the state a success leaves is `decoded` (`decoded_spec`), and each of the three failures is the first
check that fails; that of an invalid character is O35. -/
theorem decbufWritesTheLowBytesOrReportsTheFirstFailure :
    Obligations.DecbufWritesTheLowBytesOrReportsTheFirstFailure := by
  unfold Obligations.DecbufWritesTheLowBytesOrReportsTheFirstFailure
  refine ⟨fun n hn => decode_wordOfFields_decbuf hn, fun s bytes hb => ⟨fun cs ds h hn hds ho => ?_, fun hn => ?_,
    fun cs k c h hn hv hk hbad => ?_, fun cs h hn hv ho => ?_⟩⟩
  · exact ⟨_, exec_decbuf_of_entries h hn hds ho, decoded_spec ho _ rfl⟩
  · exact ⟨_, exec_decbuf_of_input hn bytes, failedWith_raiseError .capacity 1 0 s (by decide)⟩
  · exact (decodersReportTheLowestInvalidCharacter s cs k c h hn hv hk hbad).1 bytes hb
  · exact ⟨_, exec_decbuf_of_output h hn hv ho, failedWith_raiseError .capacity 2 0 s (by decide)⟩

/-- Settles O36: a success stores a value that fits INT_OUT, and each of the three failures is the first check that
fails; that of an invalid character is O35. -/
theorem decintGivesTheValueOrReportsTheFirstFailure : Obligations.DecintGivesTheValueOrReportsTheFirstFailure := by
  unfold Obligations.DecintGivesTheValueOrReportsTheFirstFailure
  refine ⟨by decide, fun s => ⟨fun cs ds h hn hds hf => ?_, fun hn => ?_, fun cs k c h hn hv hk hbad => ?_,
    fun cs ds k h hn hds hk hlow hhigh => ?_⟩⟩
  · refine ⟨_, exec_decint_of_entries h hn hds hf, ?_, succeeded_complete rfl, rfl⟩
    rw [complete_intOut, BitVec.toNat_ofNat, Nat.mod_eq_of_lt hf]
  · exact ⟨_, exec_decint_of_input hn, failedWith_raiseError .capacity 1 0 s (by decide)⟩
  · exact (decodersReportTheLowestInvalidCharacter s cs k c h hn hv hk hbad).2
  · have hpos : k < 2 ^ 24 := by
      have hlen : cs.length = ds.length := by simpa using congrArg List.length hds
      have := Config.nbuf_lt
      omega
    exact ⟨_, exec_decint_of_overflow h hn hds hk hlow hhigh, failedWith_raiseError .overflow 0 k s hpos⟩

/-- Settles O37: the value has no bits there (`stringValue_lt_pow`), so the byte is 0. -/
theorem decbufZeroFills : Obligations.DecbufZeroFills := by
  unfold Obligations.DecbufZeroFills
  intro s cs n h hn _ ho hv
  refine ⟨_, exec_decbuf_of_holds (bytes := some n) h hn hv ho, fun j hj hbits => ?_⟩
  rw [outputLength, decoded_read _ hj, byteAt_eq_zero (stringValue_lt_pow (by simpa using hbits))]

/-- Settles O38: the bytes written have the value of the remainder (`bufferValue_bytesOf`); the output fits, being
shorter than the input. -/
theorem decbufTruncationKeepsTheLowBytes : Obligations.DecbufTruncationKeepsTheLowBytes := by
  unfold Obligations.DecbufTruncationKeepsTheLowBytes
  intro s cs n h hn _ hshort hv
  have ho : n ≤ Config.nbuf := by omega
  exact ⟨_, _, exec_decbuf_of_holds (bytes := some n) h hn hv ho, decoded_succeeded _ n s, decoded_dstHolds ho _ s,
    length_bytesOf _ n, bufferValue_bytesOf _ n⟩

/-- Settles O39: the run of the unpacker from its start, where it holds the whole string. -/
theorem unpackerComputesTheBytes : Obligations.UnpackerComputesTheBytes := by
  unfold Obligations.UnpackerComputesTheBytes
  intro ds m
  rw [unpackerBytes, reverse_unpackerRun le_rfl (by decide) (Nat.le_succ _) fun _ => le_rfl]
  simp [unpackerRest, Phase.at, Phase.carryBits]

/-- Settles O40: the reverse table reads back the digits, whose value is the buffer's, and its bytes are the buffer. -/
theorem buffersRoundTrip : Obligations.BuffersRoundTrip := by
  unfold Obligations.BuffersRoundTrip
  intro s b len hinv h hn hl ho
  have hfit : bufferValue b < 64 ^ outputLength len (ldefBuf b.length) :=
    bufferValue_lt_pow ((le_mul_ldefBuf _).trans (Nat.mul_le_mul_left 6 hl))
  refine ⟨_, _, exec_encbuf_of_holds h hn ho, encoded_dstHolds ho _ s, fun u hu hsrc => ⟨fun _ => ?_, ?_⟩⟩
  · have hrun := exec_decbuf_of_chars (bytes := some b.length) (hu ▸ hinv.reverse) hsrc ho hfit hn
    have hout := decoded_dstHolds hn (bufferValue b) u
    rw [bytesOf_bufferValue] at hout
    exact ⟨_, hrun, decoded_succeeded _ _ u, hout⟩
  · rintro rfl rfl
    have hnone : outputLength none (ldefDec 0) ≤ Config.nbuf := Nat.zero_le _
    exact ⟨_, exec_decbuf_of_chars (hu ▸ hinv.reverse) hsrc ho hfit hnone, decoded_succeeded _ _ u,
      decoded_dstHolds hnone _ u⟩

/-- Settles O41: the two default lengths in a row are the buffer's length, or one more (`ldefDec_ldefBuf`), and
both hold its value. -/
theorem defaultLengthsRoundTripUpToAZeroByte : Obligations.DefaultLengthsRoundTripUpToAZeroByte := by
  unfold Obligations.DefaultLengthsRoundTripUpToAZeroByte
  intro s b hinv h ho
  have hbits := le_mul_ldefBuf b.length
  have hn : b.length ≤ Config.nbuf := by omega
  have hdec : ldefDec (ldefBuf b.length) ≤ Config.nbuf := (ldefDec_le_self _).trans ho
  refine ⟨_, _, exec_encbuf_of_holds (len := none) h hn ho, encoded_dstHolds ho _ s, fun u hu hsrc => ?_⟩
  refine ⟨_, exec_decbuf_of_chars (bytes := none) (hu ▸ hinv.reverse) hsrc ho (bufferValue_lt_pow hbits) hdec,
    decoded_succeeded _ _ u, ?_⟩
  rw [← bytesOf_bufferValue_default]
  exact decoded_dstHolds hdec _ u

/-- Settles O42: the reverse table reads back the digits, and the integer, which fits its output and INT_OUT. -/
theorem integersRoundTrip : Obligations.IntegersRoundTrip := by
  unfold Obligations.IntegersRoundTrip
  intro s len hinv ho hf
  have hfit : s.intIn.toNat < 64 ^ outputLength len (ldefInt s.intIn.toNat) := by
    cases len with
    | none => exact lt_pow_ldefInt _
    | some n => exact hf n rfl
  refine ⟨_, _, exec_encint_of_fits ho hf, encoded_dstHolds ho _ s, fun u hu hsrc => ?_⟩
  refine ⟨_, exec_decint_of_chars (hu ▸ hinv.reverse) hsrc ho hfit s.intIn.isLt, succeeded_complete rfl, ?_⟩
  rw [complete_intOut, BitVec.ofNat_toNat, BitVec.setWidth_eq]

end Sys2Proof.Proofs
end

section
/-! The obligations of spec/60_exceptions.md: every command succeeds or fails for a cause that the tables of section 1
and section 3 name, and from the cause follow its code, SUB and POS. -/

namespace Sys2Proof.Machine

/-! ## How a command fails -/

/-- The causes of a command's failure, one constructor per row of 60_exceptions.md R185: which commands it can stop,
what it says of the state, and its code, SUB and POS. -/
inductive CommandFailure (i : Instr) (s : State) : ErrCode → BitVec 4 → Nat → Prop where
  | alphabetLength (hi : i = .ldalpha) (hn : s.srcLen.toNat ≤ Config.nbuf) (hl : s.srcLen.toNat ≠ 64) :
      CommandFailure i s .alphabet 1 s.srcLen.toNat
  | alphabetRepeat (hi : i = .ldalpha) (hs : s.srcLen.toNat = 64) (cs : List Cell) (c : Cell) (hl : cs.length < 64)
      (hr : ∀ k, k < cs.length → s.src.read k = cs[k]?) (hd : cs.Nodup) (hk : s.src.read cs.length = some c)
      (hm : c ∈ cs) : CommandFailure i s .alphabet 2 cs.length
  | bounds (n : Nat) (hi : i = .encint (some n)) : CommandFailure i s .bounds 0 0
  | invalid (hi : i = .decint ∨ ∃ bytes, i = .decbuf bytes) (hn : s.srcLen.toNat ≤ Config.nbuf) (cs : List Cell)
      (c : Cell) (hl : cs.length < s.srcLen.toNat) (hr : ∀ k, k < cs.length → s.src.read k = cs[k]?)
      (hv : ∀ x ∈ cs, (s.rlut.entry x).valid = true) (hk : s.src.read cs.length = some c)
      (hbad : (s.rlut.entry c).valid = false) : CommandFailure i s .decode 0 cs.length
  | overflow (hi : i = .decint) (cs : List Cell) (k : Nat) (hh : s.srcHolds cs) (hn : cs.length ≤ Config.nbuf)
      (hk : k < cs.length) (hhigh : 2 ^ Config.intW ≤ stringValue (s.rlut.digits (cs.take (k + 1))))
      (hlow : stringValue (s.rlut.digits (cs.take k)) < 2 ^ Config.intW) : CommandFailure i s .overflow 0 k
  | input (hi : readsSrc i = true) (hn : Config.nbuf < s.srcLen.toNat) : CommandFailure i s .capacity 1 0
  | output (hn : Config.nbuf < resultLength i s) : CommandFailure i s .capacity 2 0

/-- A bound on the values of the first 1 to `k` digits bounds that of the first `k`, be there none at all. -/
theorem stringValue_take_lt {ds : List Digit} {k b : Nat} (hb : 0 < b)
    (h : ∀ i, i < k → stringValue (ds.take (i + 1)) < b) : stringValue (ds.take k) < b := by
  cases k with
  | zero => simpa using hb
  | succ k => exact h k (Nat.lt_succ_self k)

/-- A command that answers a next state succeeds, or fails for one of the causes and writes its code, SUB and POS. -/
theorem exec_ends {i : Instr} {s t : State} (h : exec i s = .next t) :
    Succeeded s t ∨ ∃ e sub pos, CommandFailure i s e sub pos ∧ t = raiseError e sub pos s := by
  cases i with
  | ldalpha =>
    rcases execLdalpha_cases h with ⟨hn, rfl⟩ | ⟨hn, hl, rfl⟩ | ⟨hs, cs, c, hl, hr, hd, hk, hm, rfl⟩ |
      ⟨cs, -, -, -, rfl⟩
    · exact .inr ⟨_, _, _, .input rfl hn, rfl⟩
    · exact .inr ⟨_, _, _, .alphabetLength rfl hn hl, rfl⟩
    · exact .inr ⟨_, _, _, .alphabetRepeat rfl hs cs c hl hr hd hk hm, rfl⟩
    · exact .inl (succeeded_loadCodec _ s)
  | lddef =>
    cases h
    exact .inl (succeeded_loadCodec _ s)
  | encbuf len =>
    rcases execEncbuf_cases h with ⟨hn, rfl⟩ | ⟨cs, hh, -, ho, rfl⟩ | ⟨cs, -, -, -, rfl⟩
    · exact .inr ⟨_, _, _, .input rfl hn, rfl⟩
    · exact .inr ⟨_, _, _, .output (by rwa [resultLength, hh.1]), rfl⟩
    · exact .inl (succeeded_writeOutput _ s)
  | encint len =>
    rcases execEncint_cases h with ⟨ho, rfl⟩ | ⟨n, rfl, -, -, rfl⟩ | ⟨-, -, rfl⟩
    · exact .inr ⟨_, _, _, .output ho, rfl⟩
    · exact .inr ⟨_, _, _, .bounds n rfl, rfl⟩
    · exact .inl (succeeded_writeOutput _ s)
  | decbuf bytes =>
    rcases execDecbuf_cases h with ⟨hn, rfl⟩ | ⟨hn, cs, c, hl, hr, hv, hk, hbad, rfl⟩ | ⟨cs, hh, -, -, ho, rfl⟩ |
      ⟨cs, -, -, -, -, rfl⟩
    · exact .inr ⟨_, _, _, .input rfl hn, rfl⟩
    · exact .inr ⟨_, _, _, .invalid (.inr ⟨bytes, rfl⟩) hn cs c hl hr hv hk hbad, rfl⟩
    · exact .inr ⟨_, _, _, .output (by rwa [resultLength, hh.1]), rfl⟩
    · exact .inl (succeeded_writeOutput _ s)
  | decint =>
    rcases execDecint_cases h with ⟨hn, rfl⟩ | ⟨hn, cs, c, hl, hr, hv, hk, hbad, rfl⟩ |
      ⟨cs, k, hh, hn, -, hk, hhigh, hlow, rfl⟩ | ⟨cs, -, -, -, -, rfl⟩
    · exact .inr ⟨_, _, _, .input rfl hn, rfl⟩
    · exact .inr ⟨_, _, _, .invalid (.inl rfl) hn cs c hl hr hv hk hbad, rfl⟩
    · have htake (j : Nat) : s.rlut.digits (cs.take j) = (s.rlut.digits cs).take j := List.map_take ..
      simp only [htake] at hhigh hlow
      have hlow := stringValue_take_lt (Nat.two_pow_pos _) hlow
      exact .inr ⟨_, _, _, .overflow rfl cs k hh hn hk (htake _ ▸ hhigh) (htake _ ▸ hlow), rfl⟩
    · exact .inl (succeeded_complete rfl)

/-- POS of a failing command is at most NBUF (60_exceptions.md R185). -/
theorem CommandFailure.pos_le_nbuf {i : Instr} {s : State} {e : ErrCode} {sub : BitVec 4} {pos : Nat}
    (h : CommandFailure i s e sub pos) : pos ≤ Config.nbuf := by
  have hmin := Config.nbuf_ge
  cases h with
  | alphabetLength _ hn => exact hn
  | alphabetRepeat | invalid | overflow => omega
  | bounds | input | output => exact Nat.zero_le _

theorem CommandFailure.failedWith {i : Instr} {s : State} {e : ErrCode} {sub : BitVec 4} {pos : Nat}
    (h : CommandFailure i s e sub pos) : FailedWith e.number sub.toNat pos s (raiseError e sub pos s) :=
  failedWith_raiseError e sub pos s (h.pos_le_nbuf.trans_lt Config.nbuf_lt)

/-- A failure in terms of the code, SUB and POS that the next state holds. -/
theorem FailedWith.of_fields {code : BitVec 4} {sub pos : Nat} {s t : State} (h : FailedWith code sub pos s t) :
    FailedWith (statusCode t.status) (errSub t.errInfo).toNat (errPos t.errInfo).toNat s t := by
  rwa [h.code, h.sub, h.pos]

theorem exec_succeeded {i : Instr} {s t : State} (h : exec i s = .next t) (hc : statusCode t.status = 0) :
    Succeeded s t := by
  rcases exec_ends h with hs | ⟨e, sub, pos, -, rfl⟩
  · exact hs
  · simp at hc

theorem exec_failure {i : Instr} {s t : State} (h : exec i s = .next t) (hc : statusCode t.status ≠ 0) :
    ∃ e sub pos, CommandFailure i s e sub pos ∧ FailedWith e.number sub.toNat pos s t := by
  rcases exec_ends h with hs | ⟨e, sub, pos, hf, rfl⟩
  · exact absurd hs.code hc
  · exact ⟨e, sub, pos, hf, hf.failedWith⟩

/-- A command that ends with an error code failed for a cause of that code, and ERR_INFO holds the cause's SUB and
POS. -/
theorem exec_failure_of_code {i : Instr} {s t : State} {e : ErrCode} (h : exec i s = .next t)
    (hc : statusCode t.status = e.number) : CommandFailure i s e (errSub t.errInfo) (errPos t.errInfo).toNat := by
  obtain ⟨e', sub, pos, hcause, hf⟩ := exec_failure h (hc ▸ e.number_ne_zero)
  obtain rfl : e = e' := ErrCode.number_injective (hc.symm.trans hf.code)
  rwa [BitVec.eq_of_toNat_eq hf.sub, hf.pos]

/-- A failing command leaves nothing changed but STATUS and ERR_INFO (60_exceptions.md R186). -/
theorem exec_failedWith {i : Instr} {s t : State} (h : exec i s = .next t) (hc : statusCode t.status ≠ 0) :
    FailedWith (statusCode t.status) (errSub t.errInfo).toNat (errPos t.errInfo).toNat s t := by
  obtain ⟨_, _, _, -, hf⟩ := exec_failure h hc
  exact hf.of_fields

/-- An issued word is a command and runs it, or is illegal and fails with E_ILLEGAL (30_encoding.md R77). -/
theorem issueWord_cases {w : Word} {s t : State} (h : issueWord w s = .next t) :
    (∃ i, decode w = .ok i ∧ exec i s = .next t) ∨ FailedWith 6 0 0 s t := by
  cases hd : decode w with
  | ok i => exact .inl ⟨i, rfl, issueWord_of_decode hd s ▸ h⟩
  | error e =>
    cases (issueWord_of_decode_error hd s).symm.trans h
    exact .inr (failedWith_raiseError .illegal 0 0 s (by decide))

/-- STATUS and ERR_INFO do not depend on the host's actions still to come. -/
theorem Succeeded.of_host {s t : State} {rest : List HostAction} (h : Succeeded { s with host := rest } t) :
    Succeeded s t :=
  ⟨h.code, h.sticky, h.reserved, h.info⟩

/-! ## SUB and POS of each code (60_exceptions.md R185) -/

section
variable {i : Instr} {s : State} {sub : BitVec 4} {pos : Nat}

theorem CommandFailure.alphabet_info (h : CommandFailure i s .alphabet sub pos) :
    (sub.toNat = 1 ∧ s.srcLen.toNat ≠ 64 ∧ pos = s.srcLen.toNat) ∨
      (sub.toNat = 2 ∧ s.srcLen.toNat = 64 ∧ pos < 64 ∧
        (∃ k c, k < pos ∧ s.src.read k = some c ∧ s.src.read pos = some c) ∧
        ∀ j, j < pos → ∃ c, s.src.read j = some c ∧ ∀ k, k < j → s.src.read k ≠ some c) := by
  cases h with
  | alphabetLength _ _ hl => exact .inl ⟨rfl, hl, rfl⟩
  | alphabetRepeat _ hs cs c hl hr hd hk hm =>
    refine .inr ⟨rfl, hs, hl, ?_, fun j hj => ⟨cs[j], by simp [hr j hj, hj], fun k hkj => ?_⟩⟩
    · obtain ⟨k, hlt, rfl⟩ := List.mem_iff_getElem.mp hm
      exact ⟨k, cs[k], hlt, by simp [hr k hlt, hlt], hk⟩
    · rw [hr k (hkj.trans hj), ← List.getElem?_eq_getElem hj]
      exact List.nodup_iff_getElem?_ne_getElem?.mp hd k j hkj hj

theorem CommandFailure.bounds_info (h : CommandFailure i s .bounds sub pos) : sub.toNat = 0 ∧ pos = 0 := by
  cases h with
  | bounds => exact ⟨rfl, rfl⟩

theorem CommandFailure.decode_info (h : CommandFailure i s .decode sub pos) :
    sub.toNat = 0 ∧ (∃ c, s.src.read pos = some c ∧ (s.rlut.entry c).valid = false) ∧
      ∀ j, j < pos → ∃ c, s.src.read j = some c ∧ (s.rlut.entry c).valid = true := by
  cases h with
  | invalid _ _ cs c _ hr hv hk hbad =>
    exact ⟨rfl, ⟨c, hk, hbad⟩, fun j hj => ⟨cs[j], by simp [hr j hj, hj], hv _ (List.getElem_mem hj)⟩⟩

theorem CommandFailure.overflow_info (h : CommandFailure i s .overflow sub pos) :
    sub.toNat = 0 ∧ ∃ cs, s.srcHolds cs ∧ pos < cs.length ∧
      2 ^ 53 ≤ stringValue (s.rlut.digits (cs.take (pos + 1))) ∧
      stringValue (s.rlut.digits (cs.take pos)) < 2 ^ 53 := by
  cases h with
  | overflow _ cs _ hh _ hk hhigh hlow => exact ⟨rfl, cs, hh, hk, hhigh, hlow⟩

theorem CommandFailure.capacity_info (h : CommandFailure i s .capacity sub pos) :
    ((sub.toNat = 1 ∧ readsSrc i = true ∧ Config.nbuf < s.srcLen.toNat) ∨
      (sub.toNat = 2 ∧ Config.nbuf < resultLength i s)) ∧ pos = 0 := by
  cases h with
  | input hi hn => exact ⟨.inl ⟨rfl, hi, hn⟩, rfl⟩
  | output hn => exact ⟨.inr ⟨rfl, hn⟩, rfl⟩

end

/-- LDDEF reads no input and writes no output, so no capacity stops it (60_exceptions.md R182). -/
theorem CommandFailure.ne_lddef {i : Instr} {s : State} {sub : BitVec 4} {pos : Nat}
    (h : CommandFailure i s .capacity sub pos) : i ≠ .lddef := by
  rintro rfl
  cases h with
  | input hi => cases hi
  | output hn => exact absurd hn (Nat.not_lt_zero _)

/-- The reserved bits of ERR_INFO are 0 and POS is at most NBUF after every command (60_exceptions.md R185). -/
theorem exec_errInfo {i : Instr} {s t : State} (h : exec i s = .next t) :
    errReserved t.errInfo = 0 ∧ (errPos t.errInfo).toNat ≤ Config.nbuf := by
  rcases exec_ends h with hs | ⟨e, sub, pos, hcause, rfl⟩
  · rw [hs.info]
    exact ⟨by decide, Nat.zero_le _⟩
  · exact ⟨hcause.failedWith.infoReserved, hcause.failedWith.pos.trans_le hcause.pos_le_nbuf⟩

/-! ## The default output of ENCBUF -/

/-- The least input whose default output exceeds `m` cells (41_encoder.md R121, 60_exceptions.md R182). -/
theorem lt_ldefBuf_iff {n m : Nat} : m < ldefBuf n ↔ 3 * m / 4 < n := by
  unfold ldefBuf
  omega

end Sys2Proof.Machine

namespace Sys2Proof.Proofs

open Sys2Proof.Machine

/-- Settles O45: an issued word fails as a command of `exec_failure`, or as an illegal word. -/
theorem failuresArePrecise : Obligations.FailuresArePrecise := by
  unfold Obligations.FailuresArePrecise
  refine ⟨fun s t w rest hq hst hc => ?_, fun i s t h hc => exec_failedWith h hc⟩
  rw [step_cons hq] at hst
  rcases issueWord_cases hst with ⟨i, -, h⟩ | hf
  · exact exec_failedWith h hc
  · exact hf.of_fields

/-- Settles O46: an illegal word ends with code 6, and a command that ends with code 0 has no cause of failure. -/
theorem successClearsTheErrorInformation : Obligations.SuccessClearsTheErrorInformation := by
  unfold Obligations.SuccessClearsTheErrorInformation
  refine ⟨fun s t w rest hq hst hc => ?_, fun i s t h hc => exec_succeeded h hc⟩
  rw [step_cons hq] at hst
  rcases issueWord_cases hst with ⟨i, hd, h⟩ | hf
  · exact ⟨⟨i, hd⟩, (exec_succeeded h hc).of_host⟩
  · exact absurd (hf.code.symm.trans hc) (by decide)

/-- Settles O48: each cause of failure names its code and the commands it can stop. -/
theorem eachCodeComesFromItsCommands : Obligations.EachCodeComesFromItsCommands := by
  unfold Obligations.EachCodeComesFromItsCommands
  intro i s t h
  by_cases hc : statusCode t.status = 0
  · exact .inl hc
  obtain ⟨e, sub, pos, hcause, hf⟩ := exec_failure h hc
  refine .inr ?_
  cases hcause with
  | alphabetLength hi | alphabetRepeat hi => exact .inl ⟨hf.code, hi⟩
  | bounds n hi => exact .inr (.inl ⟨hf.code, n, hi⟩)
  | invalid hi => exact .inr (.inr (.inl ⟨hf.code, hi⟩))
  | overflow hi => exact .inr (.inr (.inr (.inl ⟨hf.code, hi⟩)))
  | input hi hn => exact .inr (.inr (.inr (.inr ⟨hf.code, (CommandFailure.input hi hn).ne_lddef⟩)))
  | output hn => exact .inr (.inr (.inr (.inr ⟨hf.code, (CommandFailure.output hn).ne_lddef⟩)))

/-- Settles O49: the code that a command ends with determines the row of the table its cause is in
(`exec_failure_of_code`), and each row gives its SUB and POS. -/
theorem errorInformationIsAsTabled : Obligations.ErrorInformationIsAsTabled := by
  unfold Obligations.ErrorInformationIsAsTabled
  refine ⟨fun w e s hd => ?_, fun i s t h => ?_⟩
  · exact ⟨_, issueWord_of_decode_error hd s, statusCode_onFailure .illegal s.status, rfl⟩
  · obtain ⟨hreserved, hpos⟩ := exec_errInfo h
    refine ⟨hreserved, hpos, exec_statusCode_ne_byte h, fun hc => ?_, fun hc => ?_, fun hc => ?_, fun hc => ?_,
      fun hc => ?_, fun hc => ?_⟩
    · rw [(exec_succeeded h hc).info]
      decide
    · exact (exec_failure_of_code (e := .alphabet) h hc).alphabet_info
    · exact (exec_failure_of_code (e := .bounds) h hc).bounds_info
    · exact (exec_failure_of_code (e := .decode) h hc).decode_info
    · exact (exec_failure_of_code (e := .overflow) h hc).overflow_info
    · exact (exec_failure_of_code (e := .capacity) h hc).capacity_info

/-- Settles O22: the output that does not fit is the one check that can fail, and `lt_ldefBuf_iff` says when it does. -/
theorem encbufDefaultOutputCapacity : Obligations.EncbufDefaultOutputCapacity := by
  unfold Obligations.EncbufDefaultOutputCapacity
  intro s cs h hn
  rw [← lt_ldefBuf_iff]
  constructor
  · rintro ⟨t, ht, hf⟩
    by_contra hle
    cases ht.symm.trans (exec_encbuf_of_holds (len := none) h hn (Nat.le_of_not_lt hle))
    exact absurd (hf.code.symm.trans (encoded_succeeded _ _ s).code) (by decide)
  · intro ho
    exact ⟨_, exec_encbuf_of_output (len := none) h hn ho, failedWith_raiseError .capacity 2 0 s (by decide)⟩

end Sys2Proof.Proofs
end

section
/-! The obligations of spec/70_reset_and_hazards.md: reset, waiting for the host, and that a command completes
unless it comes to read a cell that nothing has written (R203). -/

namespace Sys2Proof.Machine

/-! ## Waiting and reset -/

theorem step_nil {s : State} (h : s.host = []) : step s = .next s := by
  simp [step, h]

/-- Reset leaves the reset values, whatever the state held, but for the model's own queue and replies. -/
theorem hostReset_without_host (s : State) : { hostReset s with host := [], replies := [] } = State.reset := rfl

/-! ## Where a command can fault -/

/-- A computation comes to read an unwritten cell only where `p` holds of the cell's index. -/
def FaultsOnlyAt {α : Type} (p : Nat → Prop) (r : Except Stop α) : Prop := ∀ k, r = .error (.unwritten k) → p k

section
variable {α β : Type} {p : Nat → Prop}

theorem faultsOnlyAt_ok (a : α) : FaultsOnlyAt p (.ok a) := nofun

theorem faultsOnlyAt_require {c : Prop} {_ : Decidable c} {e : ErrCode} {sub : BitVec 4} {pos : Nat} :
    FaultsOnlyAt p (require c e sub pos) := by
  intro k hk
  unfold require at hk
  split at hk <;> cases hk

theorem faultsOnlyAt_requireFits (len : Option Nat) (num : Nat) : FaultsOnlyAt p (requireFits len num) := by
  cases len with
  | none => exact faultsOnlyAt_ok ()
  | some n => exact faultsOnlyAt_require

/-- DECINT reads all of its digits before it accumulates them. -/
theorem faultsOnlyAt_accumulate (ds : List Digit) (k acc : Nat) : FaultsOnlyAt p (accumulate ds k acc) := by
  intro j hj
  obtain ⟨_, -, hstop, -⟩ := accumulate_error.mp hj
  cases hstop

/-- In a sequence the second part counts only for the values that the first one can answer. -/
theorem FaultsOnlyAt.bind {r : Except Stop α} {f : α → Except Stop β} (hr : FaultsOnlyAt p r)
    (hf : ∀ a, r = .ok a → FaultsOnlyAt p (f a)) : FaultsOnlyAt p (r >>= f) := by
  cases r with
  | ok a => exact hf a rfl
  | error stop =>
    intro k hk
    cases hk
    exact hr k rfl

end

/-- A check raises errors of its command, and reads no cell. -/
def OnlyRaises (check : List Cell → Nat → Cell → Option Stop) : Prop :=
  ∀ seen k c j, check seen k c ≠ some (.unwritten j)

theorem onlyRaises_byteCheck : OnlyRaises byteCheck := by
  intro seen k c j
  simp

theorem onlyRaises_repeatCheck : OnlyRaises repeatCheck := by
  intro seen k c j
  unfold repeatCheck
  split <;> simp

theorem onlyRaises_decodeCheck (rlut : ReverseMap) : OnlyRaises (decodeCheck rlut) := by
  intro seen k c j
  unfold decodeCheck
  split <;> simp

/-- The cell at index `k` belongs to the operands of command `i`, and nothing has written it
(70_reset_and_hazards.md R203). -/
structure UnwrittenOperand (i : Instr) (s : State) (k : Nat) : Prop where
  reads : readsSrc i = true
  input : s.srcLen.toNat ≤ Config.nbuf
  index : k < s.srcLen.toNat
  cell : s.src.read k = none

theorem not_unwrittenOperand {i : Instr} {s : State} (h : OperandsReady i s) (k : Nat) : ¬ UnwrittenOperand i s k := by
  rintro ⟨hreads, hn, hk, hcell⟩
  simpa [hcell] using h hreads hn k hk

theorem le_of_requireInput_ok {n : Nat} {s : State} (h : requireInput n s = .ok ()) : s.srcLen.toNat ≤ n := by
  unfold requireInput require at h
  split at h
  · assumption
  · cases h

/-- The part of a command that reads its input, after the check that the input is within the capacity. -/
theorem faultsOnlyAt_input {α : Type} {i : Instr} {s : State} (hi : readsSrc i = true)
    {check : List Cell → Nat → Cell → Option Stop} (hcheck : OnlyRaises check) {f : List Cell → Except Stop α}
    (hf : ∀ cs, FaultsOnlyAt (UnwrittenOperand i s) (f cs)) (hn : requireInput Config.nbuf s = .ok ()) :
    FaultsOnlyAt (UnwrittenOperand i s) (scanSrc check s >>= f) := by
  refine .bind (fun k hk => ?_) fun cs _ => hf cs
  obtain ⟨cs, hl, -, -, ⟨hcell, hstop⟩ | ⟨c, -, hraise⟩⟩ := scanSrc_raise_cases hk
  · cases hstop
    exact ⟨hi, le_of_requireInput_ok hn, hl, hcell⟩
  · exact absurd hraise (hcheck _ _ _ _)

/-- A command comes to read no unwritten cell but one of its operands. -/
theorem faultsOnlyAt_commandResult (i : Instr) (s : State) :
    FaultsOnlyAt (UnwrittenOperand i s) (commandResult s i) := by
  cases i with
  | ldalpha =>
    refine .bind faultsOnlyAt_require fun _ hn => .bind faultsOnlyAt_require fun _ _ => ?_
    exact faultsOnlyAt_input rfl onlyRaises_repeatCheck (fun _ => faultsOnlyAt_ok _) hn
  | lddef => exact faultsOnlyAt_ok _
  | encbuf len =>
    refine .bind faultsOnlyAt_require fun _ hn => faultsOnlyAt_input rfl onlyRaises_byteCheck (fun _ => ?_) hn
    exact .bind faultsOnlyAt_require fun _ _ => faultsOnlyAt_ok _
  | encint len =>
    refine .bind faultsOnlyAt_require fun _ _ => .bind (faultsOnlyAt_requireFits _ _) fun _ _ => ?_
    exact faultsOnlyAt_ok _
  | decbuf bytes =>
    refine .bind faultsOnlyAt_require fun _ hn => ?_
    refine faultsOnlyAt_input rfl (onlyRaises_decodeCheck _) (fun _ => ?_) hn
    exact .bind faultsOnlyAt_require fun _ _ => faultsOnlyAt_ok _
  | decint =>
    refine .bind faultsOnlyAt_require fun _ hn => ?_
    refine faultsOnlyAt_input rfl (onlyRaises_decodeCheck _) (fun _ => ?_) hn
    exact .bind (faultsOnlyAt_accumulate _ _ _) fun _ _ => faultsOnlyAt_ok _

/-- A command completes, or faults on an unwritten cell of its operands; none is refused. -/
theorem exec_next_or_fault (i : Instr) (s : State) :
    (∃ t, exec i s = .next t) ∨ ∃ k, UnwrittenOperand i s k ∧ exec i s = .fault (.unwrittenSrc k) := by
  rw [exec_eq_endCommand]
  cases hr : commandResult s i with
  | ok r => exact .inl ⟨_, rfl⟩
  | error stop =>
    cases stop with
    | raise e sub pos => exact .inl ⟨_, rfl⟩
    | unwritten k => exact .inr ⟨k, faultsOnlyAt_commandResult i s k hr, rfl⟩

/-! ## The commands that come to an unwritten cell -/

section
variable {s : State} {cs : List Cell} (hn : s.srcLen.toNat ≤ Config.nbuf) (hl : cs.length < s.srcLen.toNat)
  (hr : ∀ k, k < cs.length → s.src.read k = cs[k]?) (hu : s.src.read cs.length = none)
include hn hl hr hu

theorem exec_ldalpha_of_unwritten (hs : s.srcLen.toNat = 64) (hd : cs.Nodup) :
    exec .ldalpha s = .fault (.unwrittenSrc cs.length) := by
  rw [exec, execLdalpha, ldalphaCommand_eq, if_pos hn, if_pos hs,
    scanSrc_unwritten hl hr ((repeatCheck_none_iff_nodup cs).mpr hd) hu, error_bind, endCommand_unwritten]

/-- No byte fails the check of ENCBUF, and the output's length is checked after the cells are read (log 7). -/
theorem exec_encbuf_of_unwritten (len : Option Nat) :
    exec (.encbuf len) s = .fault (.unwrittenSrc cs.length) := by
  rw [exec, execEncbuf, encbufCommand_eq, if_pos hn, scanSrc_unwritten hl hr (by simp) hu, error_bind,
    endCommand_unwritten]

omit hn in
theorem scanSrc_decodeCheck_unwritten (hv : ∀ c ∈ cs, (s.rlut.entry c).valid = true) :
    scanSrc (decodeCheck s.rlut) s = .error (.unwritten cs.length) :=
  scanSrc_unwritten hl hr (fun _ hk => decodeCheck_eq_none.mpr (hv _ (List.getElem_mem hk))) hu

theorem exec_decbuf_of_unwritten (hv : ∀ c ∈ cs, (s.rlut.entry c).valid = true) (bytes : Option Nat) :
    exec (.decbuf bytes) s = .fault (.unwrittenSrc cs.length) := by
  rw [exec, execDecbuf, decbufCommand_eq, if_pos hn, scanSrc_decodeCheck_unwritten hl hr hu hv, error_bind,
    endCommand_unwritten]

theorem exec_decint_of_unwritten (hv : ∀ c ∈ cs, (s.rlut.entry c).valid = true) :
    exec .decint s = .fault (.unwrittenSrc cs.length) := by
  rw [exec, execDecint, decintCommand_eq, if_pos hn, scanSrc_decodeCheck_unwritten hl hr hu hv, error_bind,
    endCommand_unwritten]

end

end Sys2Proof.Machine

namespace Sys2Proof.Proofs

open Sys2Proof.Machine

/-- Settles O43: a command that does not complete faults on an unwritten cell of its operands, and there is none. -/
theorem everyCommandCompletesOnWrittenOperands : Obligations.EveryCommandCompletesOnWrittenOperands := by
  unfold Obligations.EveryCommandCompletesOnWrittenOperands
  intro i s hready
  rcases exec_next_or_fault i s with hnext | ⟨k, hk, -⟩
  · exact hnext
  · exact absurd hk (not_unwrittenOperand hready k)

/-- Settles O44: the scan of each command comes to the unwritten cell when the cells before it pass its check. -/
theorem unwrittenOperandCellsFault : Obligations.UnwrittenOperandCellsFault := by
  unfold Obligations.UnwrittenOperandCellsFault
  intro s cs hn hl hr hu
  exact ⟨exec_ldalpha_of_unwritten hn hl hr hu, exec_encbuf_of_unwritten hn hl hr hu, fun hv =>
    ⟨exec_decbuf_of_unwritten hn hl hr hu hv, exec_decint_of_unwritten hn hl hr hu hv⟩⟩

/-- Settles O6: the step of an empty queue. -/
theorem coreWaitsForTheHost : Obligations.CoreWaitsForTheHost := by
  unfold Obligations.CoreWaitsForTheHost
  exact fun s h => step_nil h

/-- Settles O14: the table of codes agrees with its closed form, and RLUT is derived from it; the pending action of a
step on Reset is `hostReset`. -/
theorem resetGivesTheResetValues : Obligations.ResetGivesTheResetValues := by
  unfold Obligations.ResetGivesTheResetValues
  refine ⟨toNat_char_defaultAlphabet, entry_deriveRlut_char defaultAlphabet_increasing.distinct,
    entry_deriveRlut_absent defaultAlphabet, fun k => ⟨rfl, rfl⟩, rfl, rfl, rfl, rfl, rfl, rfl, fun s rest hs => ?_⟩
  exact ⟨hostReset { s with host := rest }, step_cons hs, hostReset_without_host _⟩

/-- Settles O51: the four parts of the invariant, each of which holds right after reset. -/
theorem resetMeetsTheInvariant : Obligations.ResetMeetsTheInvariant := by
  unfold Obligations.ResetMeetsTheInvariant
  exact ⟨codecInv_reset, statusInv_reset, memoryInv_reset, outputInv_reset⟩

end Sys2Proof.Proofs
end
